-- ==== Sys2Proof/Word.lean ====
section
/-! DEFINITION. The bit vectors of the hardware: every architectural value is an unsigned integer of a stated width
(`00_scope.md` R9); bit 0 is the least significant (R8). -/

namespace Sys2Proof

/-- A general register, a timer, a memory byte, a byte immediate (R6 REGW, R20, R60). -/
abbrev Byte := BitVec 8

/-- I, IP, a stack entry, the key latch, an opcode word (R6 IW, PCW, STACK_W; R90). -/
abbrev Word := BitVec 16

/-- A register index: a 4-bit instruction field or the latch WAITREG, so always 0 to 15 (R20, R95). -/
abbrev RegIndex := BitVec 4

/-- The 12-bit address immediate `nnn` (R91, R95). -/
abbrev Address := BitVec 12

end Sys2Proof
end

