-- ==== Sys2Proof/Syntax.lean ====
section
/-! DEFINITION. The instruction kinds, the encoding shapes, the instructions with their operands, and the instruction
descriptor (`30_encoding.md` R92 to R95). One constructor of `Instr` per row of `spec/opcode_table.json`. -/

namespace Sys2Proof

/-- The 35 instruction kinds of R93, `unknown` included. -/
inductive Kind where
  | cls | ret | jp | call
  | seImm | sneImm | seReg
  | ldImm | addImm | ldReg
  | or | and | xor | addReg | sub | shr | subn | shl
  | sneReg | ldI | jpV0 | rnd | drw
  | skp | sknp
  | ldVxDt | ldVxK | ldDtVx | ldStVx
  | addIVx | ldFVx | ldBVx | stBlock | ldBlock
  | unknown
  deriving DecidableEq, Repr

/-- The six encoding shapes of R92. -/
inductive Shape where
  | noOperand
  | address
  | destination
  | destinationByte
  | destinationSource
  | destinationSourceNibble
  deriving DecidableEq, Repr

/-- The shape of each kind (the third column of R93). -/
def Kind.shape : Kind → Shape
  | .cls | .ret | .unknown => .noOperand
  | .jp | .call | .ldI | .jpV0 => .address
  | .seImm | .sneImm | .ldImm | .addImm | .rnd => .destinationByte
  | .seReg | .sneReg | .ldReg | .or | .and | .xor | .addReg | .sub | .shr | .subn | .shl => .destinationSource
  | .drw => .destinationSourceNibble
  | .skp | .sknp | .ldVxDt | .ldVxK | .ldDtVx | .ldStVx | .addIVx | .ldFVx | .ldBVx | .stBlock | .ldBlock => .destination

/-- An instruction with exactly the operand fields of its shape (R92, R94); a field outside the shape does not exist
(D33). `x` is `dst`, `y` is `src`, `kk` the byte immediate, `nnn` the address, `n` the nibble. -/
inductive Instr where
  /-- 00E0, `CLS` -/
  | cls
  /-- 00EE, `RET` -/
  | ret
  /-- 1nnn, `JP addr` -/
  | jp (nnn : Address)
  /-- 2nnn, `CALL addr` -/
  | call (nnn : Address)
  /-- 3xkk, `SE Vx, #kk` -/
  | seImm (x : RegIndex) (kk : Byte)
  /-- 4xkk, `SNE Vx, #kk` -/
  | sneImm (x : RegIndex) (kk : Byte)
  /-- 5xy-, `SE Vx, Vy` -/
  | seReg (x y : RegIndex)
  /-- 6xkk, `LD Vx, #kk` -/
  | ldImm (x : RegIndex) (kk : Byte)
  /-- 7xkk, `ADD Vx, #kk` -/
  | addImm (x : RegIndex) (kk : Byte)
  /-- 8xy0, `LD Vx, Vy` -/
  | ldReg (x y : RegIndex)
  /-- 8xy1, `OR Vx, Vy` -/
  | or (x y : RegIndex)
  /-- 8xy2, `AND Vx, Vy` -/
  | and (x y : RegIndex)
  /-- 8xy3, `XOR Vx, Vy` -/
  | xor (x y : RegIndex)
  /-- 8xy4, `ADD Vx, Vy` -/
  | addReg (x y : RegIndex)
  /-- 8xy5, `SUB Vx, Vy` -/
  | sub (x y : RegIndex)
  /-- 8xy6, `SHR Vx, Vy` -/
  | shr (x y : RegIndex)
  /-- 8xy7, `SUBN Vx, Vy` -/
  | subn (x y : RegIndex)
  /-- 8xyE, `SHL Vx, Vy` -/
  | shl (x y : RegIndex)
  /-- 9xy-, `SNE Vx, Vy` -/
  | sneReg (x y : RegIndex)
  /-- Annn, `LD I, addr` -/
  | ldI (nnn : Address)
  /-- Bnnn, `JP V0, addr` -/
  | jpV0 (nnn : Address)
  /-- Cxkk, `RND Vx, #kk` -/
  | rnd (x : RegIndex) (kk : Byte)
  /-- Dxyn, `DRW Vx, Vy, #n` -/
  | drw (x y : RegIndex) (n : BitVec 4)
  /-- Ex9E, `SKP Vx` -/
  | skp (x : RegIndex)
  /-- ExA1, `SKNP Vx` -/
  | sknp (x : RegIndex)
  /-- Fx07, `LD Vx, DT` -/
  | ldVxDt (x : RegIndex)
  /-- Fx0A, `LD Vx, K` -/
  | ldVxK (x : RegIndex)
  /-- Fx15, `LD DT, Vx` -/
  | ldDtVx (x : RegIndex)
  /-- Fx18, `LD ST, Vx` -/
  | ldStVx (x : RegIndex)
  /-- Fx1E, `ADD I, Vx` -/
  | addIVx (x : RegIndex)
  /-- Fx29, `LD F, Vx` -/
  | ldFVx (x : RegIndex)
  /-- Fx33, `LD B, Vx` -/
  | ldBVx (x : RegIndex)
  /-- Fx55, `LD [I], Vx` -/
  | stBlock (x : RegIndex)
  /-- Fx65, `LD Vx, [I]` -/
  | ldBlock (x : RegIndex)
  /-- every other word (R102) -/
  | unknown
  deriving DecidableEq, Repr

/-- The kind of an instruction (R93). -/
def Instr.kind : Instr → Kind
  | .cls => .cls
  | .ret => .ret
  | .jp _ => .jp
  | .call _ => .call
  | .seImm _ _ => .seImm
  | .sneImm _ _ => .sneImm
  | .seReg _ _ => .seReg
  | .ldImm _ _ => .ldImm
  | .addImm _ _ => .addImm
  | .ldReg _ _ => .ldReg
  | .or _ _ => .or
  | .and _ _ => .and
  | .xor _ _ => .xor
  | .addReg _ _ => .addReg
  | .sub _ _ => .sub
  | .shr _ _ => .shr
  | .subn _ _ => .subn
  | .shl _ _ => .shl
  | .sneReg _ _ => .sneReg
  | .ldI _ => .ldI
  | .jpV0 _ => .jpV0
  | .rnd _ _ => .rnd
  | .drw _ _ _ => .drw
  | .skp _ => .skp
  | .sknp _ => .sknp
  | .ldVxDt _ => .ldVxDt
  | .ldVxK _ => .ldVxK
  | .ldDtVx _ => .ldDtVx
  | .ldStVx _ => .ldStVx
  | .addIVx _ => .addIVx
  | .ldFVx _ => .ldFVx
  | .ldBVx _ => .ldBVx
  | .stBlock _ => .stBlock
  | .ldBlock _ => .ldBlock
  | .unknown => .unknown

/-- The instruction descriptor of R94, the decoder's output record: the kind, its shape, and the operand fields, each
present or absent, as plain numbers. A descriptor that someone fills in by hand (the assembler's side) can be ill formed;
`Sys2Proof/WellFormed.lean` says when it is not. -/
structure Descriptor where
  kind : Kind
  shape : Shape
  dst : Option Nat := none
  src : Option Nat := none
  immediateByte : Option Nat := none
  nibble : Option Nat := none
  address : Option Nat := none
  deriving DecidableEq, Repr

/-- The descriptor of an instruction: the operand fields of the shape hold the raw field values (R94). -/
def Instr.descriptor (i : Instr) : Descriptor :=
  match i with
  | .cls | .ret | .unknown => { kind := i.kind, shape := i.kind.shape }
  | .jp nnn | .call nnn | .ldI nnn | .jpV0 nnn =>
    { kind := i.kind, shape := i.kind.shape, address := some nnn.toNat }
  | .seImm x kk | .sneImm x kk | .ldImm x kk | .addImm x kk | .rnd x kk =>
    { kind := i.kind, shape := i.kind.shape, dst := some x.toNat, immediateByte := some kk.toNat }
  | .seReg x y | .sneReg x y | .ldReg x y | .or x y | .and x y | .xor x y | .addReg x y | .sub x y | .shr x y
  | .subn x y | .shl x y =>
    { kind := i.kind, shape := i.kind.shape, dst := some x.toNat, src := some y.toNat }
  | .drw x y n =>
    { kind := i.kind, shape := i.kind.shape, dst := some x.toNat, src := some y.toNat, nibble := some n.toNat }
  | .skp x | .sknp x | .ldVxDt x | .ldVxK x | .ldDtVx x | .ldStVx x | .addIVx x | .ldFVx x | .ldBVx x | .stBlock x
  | .ldBlock x =>
    { kind := i.kind, shape := i.kind.shape, dst := some x.toNat }

end Sys2Proof
end

