-- ==== Sys2Proof/WellFormed.lean ====
section
/-! DEFINITION. When a descriptor is well formed (`30_encoding.md` R92, R94; `46_unknown.md` R257): its shape is its
kind's, it has exactly the fields of that shape, and each field is in its range. -/

namespace Sys2Proof

/-- "exactly one encoding shape is active per kind": the shape is the one R93 gives the kind. -/
def Descriptor.shapeOk (d : Descriptor) : Bool := d.shape == d.kind.shape

/-- The operand fields present are those of the shape, no fewer and no more (R92, R94, D33). -/
def Descriptor.fieldsOk (d : Descriptor) : Bool :=
  let present := (d.dst.isSome, d.src.isSome, d.immediateByte.isSome, d.nibble.isSome, d.address.isSome)
  match d.shape with
  | .noOperand => present == (false, false, false, false, false)
  | .address => present == (false, false, false, false, true)
  | .destination => present == (true, false, false, false, false)
  | .destinationByte => present == (true, false, true, false, false)
  | .destinationSource => present == (true, true, false, false, false)
  | .destinationSourceNibble => present == (true, true, false, true, false)

/-- `dst` and `src` in [0, 15], `nibble` in [0, 15], `immediateByte` in [0, 255] (R91, R94): the preconditions of
`Encode` (R104, D32). -/
def Descriptor.operandsInRange (d : Descriptor) : Bool :=
  d.dst.all (· < 16) && d.src.all (· < 16) && d.nibble.all (· < 16) && d.immediateByte.all (· < 256)

/-- `address` in [0, 4095] (R94). Not a precondition of `Encode`, which masks the address (R104). -/
def Descriptor.addressInRange (d : Descriptor) : Bool := d.address.all (· < 4096)

/-- A shape-consistent descriptor with every field in range (R94, R257). -/
def Descriptor.wellFormed (d : Descriptor) : Bool :=
  d.shapeOk && d.fieldsOk && d.operandsInRange && d.addressInRange

/-- An instruction is well formed when its descriptor is. The operand types hold the ranges already, so every `Instr` is
(`Sys2Proof/Laws/PerInstr.lean`). -/
def Instr.wellFormed (i : Instr) : Bool := i.descriptor.wellFormed

/-- UNKNOWN has no encoding and the assembler cannot produce it (R104, R256). -/
def Instr.assemblable (i : Instr) : Bool := i.kind != .unknown

end Sys2Proof
end

