-- ==== Sys2Proof/Decode.lean ====
section
/-! DEFINITION. The decoder, a total function of the opcode word (`30_encoding.md` R90, R91, R96 to R103), the encoder,
its mirror (R104), and the opcode table (R106). -/

namespace Sys2Proof

/-! ## The fields of an opcode word (R91) -/

/-- `w[15:12]` -/
def familyOf (w : Word) : BitVec 4 := w.extractLsb' 12 4

/-- `w[11:8]`, pattern letter `x` -/
def dstOf (w : Word) : RegIndex := w.extractLsb' 8 4

/-- `w[7:4]`, pattern letter `y` -/
def srcOf (w : Word) : RegIndex := w.extractLsb' 4 4

/-- `w[3:0]`, pattern letter `n` -/
def nibbleOf (w : Word) : BitVec 4 := w.extractLsb' 0 4

/-- `w[7:0]`, pattern letters `kk` -/
def immediateByteOf (w : Word) : Byte := w.extractLsb' 0 8

/-- `w[11:0]`, pattern letters `nnn` -/
def addressOf (w : Word) : Address := w.extractLsb' 0 12

/-! ## The decoder -/

/-- Family 0x0: the whole word is compared (R97, D5; the number 0x00EE: log 14). -/
def decodeFamily0 (w : Word) : Instr :=
  if w = 0x00E0 then .cls
  else if w = 0x00EE then .ret
  else .unknown

/-- Family 0x8: the fixed 16-entry table on the low nibble (R99). -/
def decodeFamily8 (w : Word) : Instr :=
  if nibbleOf w = 0x0 then .ldReg (dstOf w) (srcOf w)
  else if nibbleOf w = 0x1 then .or (dstOf w) (srcOf w)
  else if nibbleOf w = 0x2 then .and (dstOf w) (srcOf w)
  else if nibbleOf w = 0x3 then .xor (dstOf w) (srcOf w)
  else if nibbleOf w = 0x4 then .addReg (dstOf w) (srcOf w)
  else if nibbleOf w = 0x5 then .sub (dstOf w) (srcOf w)
  else if nibbleOf w = 0x6 then .shr (dstOf w) (srcOf w)
  else if nibbleOf w = 0x7 then .subn (dstOf w) (srcOf w)
  else if nibbleOf w = 0xE then .shl (dstOf w) (srcOf w)
  else .unknown

/-- Family 0xE: the whole low byte is compared (R100, D6; log 14). -/
def decodeFamilyE (w : Word) : Instr :=
  if immediateByteOf w = 0x9E then .skp (dstOf w)
  else if immediateByteOf w = 0xA1 then .sknp (dstOf w)
  else .unknown

/-- Family 0xF: the 128-entry table on the low byte; a low byte with bit 7 set has no slot (R101, D7, D8, C1; log 14). -/
def decodeFamilyF (w : Word) : Instr :=
  if immediateByteOf w = 0x07 then .ldVxDt (dstOf w)
  else if immediateByteOf w = 0x0A then .ldVxK (dstOf w)
  else if immediateByteOf w = 0x15 then .ldDtVx (dstOf w)
  else if immediateByteOf w = 0x18 then .ldStVx (dstOf w)
  else if immediateByteOf w = 0x1E then .addIVx (dstOf w)
  else if immediateByteOf w = 0x29 then .ldFVx (dstOf w)
  else if immediateByteOf w = 0x33 then .ldBVx (dstOf w)
  else if immediateByteOf w = 0x55 then .stBlock (dstOf w)
  else if immediateByteOf w = 0x65 then .ldBlock (dstOf w)
  else .unknown

/-- `Decode(w)` (R96, R98): total; every word gives an instruction, UNKNOWN where no mapping exists (R102). -/
def decode (w : Word) : Instr :=
  match (familyOf w).toNat with
  | 0x0 => decodeFamily0 w
  | 0x1 => .jp (addressOf w)
  | 0x2 => .call (addressOf w)
  | 0x3 => .seImm (dstOf w) (immediateByteOf w)
  | 0x4 => .sneImm (dstOf w) (immediateByteOf w)
  | 0x5 => .seReg (dstOf w) (srcOf w)
  | 0x6 => .ldImm (dstOf w) (immediateByteOf w)
  | 0x7 => .addImm (dstOf w) (immediateByteOf w)
  | 0x8 => decodeFamily8 w
  | 0x9 => .sneReg (dstOf w) (srcOf w)
  | 0xA => .ldI (addressOf w)
  | 0xB => .jpV0 (addressOf w)
  | 0xC => .rnd (dstOf w) (immediateByteOf w)
  | 0xD => .drw (dstOf w) (srcOf w) (nibbleOf w)
  | 0xE => decodeFamilyE w
  | _ => decodeFamilyF w

/-- Why a byte sequence gives no instruction: it is shorter than the two bytes of a word (R90). A word itself is never
rejected (R96). -/
inductive DecodeError where
  | truncated
  deriving DecidableEq, Repr

/-- A word from its four nibbles, the family first (R8). -/
def wordOfNibbles (family x y n : BitVec 4) : Word := family ++ x ++ y ++ n

/-- The opcode word of two consecutive bytes: the byte at the lower address is the high byte (R65, R90). -/
def wordOfBytes (hi lo : Byte) : Word := hi ++ lo

/-- The two bytes of an opcode word, in address order (R65). -/
def bytesOfWord (w : Word) : List Byte := [w.extractLsb' 8 8, w.extractLsb' 0 8]

/-- Decoding from bytes: the instruction and the bytes that follow it. -/
def decodeBytes : List Byte → Except DecodeError (Instr × List Byte)
  | hi :: lo :: rest => .ok (decode (wordOfBytes hi lo), rest)
  | _ => .error .truncated

/-! ## The encoder -/

/-- `base(kind)`: the pattern of R93 with every operand letter and every `-` replaced by 0 (R104, C9). UNKNOWN has none. -/
def baseWord : Kind → Option Word
  | .cls => some 0x00E0
  | .ret => some 0x00EE
  | .jp => some 0x1000
  | .call => some 0x2000
  | .seImm => some 0x3000
  | .sneImm => some 0x4000
  | .seReg => some 0x5000
  | .ldImm => some 0x6000
  | .addImm => some 0x7000
  | .ldReg => some 0x8000
  | .or => some 0x8001
  | .and => some 0x8002
  | .xor => some 0x8003
  | .addReg => some 0x8004
  | .sub => some 0x8005
  | .shr => some 0x8006
  | .subn => some 0x8007
  | .shl => some 0x800E
  | .sneReg => some 0x9000
  | .ldI => some 0xA000
  | .jpV0 => some 0xB000
  | .rnd => some 0xC000
  | .drw => some 0xD000
  | .skp => some 0xE09E
  | .sknp => some 0xE0A1
  | .ldVxDt => some 0xF007
  | .ldVxK => some 0xF00A
  | .ldDtVx => some 0xF015
  | .ldStVx => some 0xF018
  | .addIVx => some 0xF01E
  | .ldFVx => some 0xF029
  | .ldBVx => some 0xF033
  | .stBlock => some 0xF055
  | .ldBlock => some 0xF065
  | .unknown => none

/-- `operands(d)` of R104, on an instruction. -/
def operandBits : Instr → Word
  | .cls | .ret | .unknown => 0
  | .jp nnn | .call nnn | .ldI nnn | .jpV0 nnn => nnn.setWidth 16
  | .seImm x kk | .sneImm x kk | .ldImm x kk | .addImm x kk | .rnd x kk => x.setWidth 16 <<< 8 ||| kk.setWidth 16
  | .seReg x y | .sneReg x y | .ldReg x y | .or x y | .and x y | .xor x y | .addReg x y | .sub x y | .shr x y
  | .subn x y | .shl x y => x.setWidth 16 <<< 8 ||| y.setWidth 16 <<< 4
  | .drw x y n => x.setWidth 16 <<< 8 ||| y.setWidth 16 <<< 4 ||| n.setWidth 16
  | .skp x | .sknp x | .ldVxDt x | .ldVxK x | .ldDtVx x | .ldStVx x | .addIVx x | .ldFVx x | .ldBVx x | .stBlock x
  | .ldBlock x => x.setWidth 16 <<< 8

/-- `Encode` (R104): base word or-ed with the operand fields; none for UNKNOWN. -/
def encode (i : Instr) : Option Word := (baseWord i.kind).map (· ||| operandBits i)

/-- The bytes of an instruction, high byte first (R104, R65). -/
def encodeBytes (i : Instr) : Option (List Byte) := (encode i).map bytesOfWord

/-- Why a descriptor is not encoded. -/
inductive EncodeError where
  /-- the kind is UNKNOWN, which has no encoding (R104) -/
  | noEncoding
  /-- the shape is not the kind's (R92) -/
  | shapeMismatch
  /-- a field of the shape is absent, or a field outside it present (R94) -/
  | fieldMismatch
  /-- a register, count or byte field out of its range (R94, D32) -/
  | operandOutOfRange
  deriving DecidableEq, Repr

/-- `operands(d)` of R104, on a descriptor; the address is masked with 0xFFF. -/
def descriptorBits (d : Descriptor) : Word :=
  let dst := BitVec.ofNat 16 (d.dst.getD 0) <<< 8
  let src := BitVec.ofNat 16 (d.src.getD 0) <<< 4
  match d.shape with
  | .noOperand => 0
  | .address => BitVec.ofNat 16 (d.address.getD 0) &&& 0xFFF
  | .destination => dst
  | .destinationByte => dst ||| BitVec.ofNat 16 (d.immediateByte.getD 0)
  | .destinationSource => dst ||| src
  | .destinationSourceNibble => dst ||| src ||| BitVec.ofNat 16 (d.nibble.getD 0)

/-- `Encode(d)` of R104 on the descriptor record: defined on descriptors that meet its preconditions (R94, D32). -/
def encodeDescriptor (d : Descriptor) : Except EncodeError Word :=
  match baseWord d.kind with
  | none => .error .noEncoding
  | some base =>
    if !d.shapeOk then .error .shapeMismatch
    else if !d.fieldsOk then .error .fieldMismatch
    else if !d.operandsInRange then .error .operandOutOfRange
    else .ok (base ||| descriptorBits d)

/-! ## The opcode table (R106) -/

/-- One row of the opcode map: `w` selects the row when `w &&& mask = pattern`. -/
structure OpcodeRow where
  kind : Kind
  pattern : Word
  mask : Word
  deriving DecidableEq, Repr

/-- Does a word select the row? (R106) -/
def OpcodeRow.selects (r : OpcodeRow) (w : Word) : Bool := w &&& r.mask == r.pattern

/-- The 34 rows of the valid kinds, in the table's order. -/
def opcodeTable : List OpcodeRow :=
  [⟨.cls, 0x00E0, 0xFFFF⟩, ⟨.ret, 0x00EE, 0xFFFF⟩, ⟨.jp, 0x1000, 0xF000⟩, ⟨.call, 0x2000, 0xF000⟩,
   ⟨.seImm, 0x3000, 0xF000⟩, ⟨.sneImm, 0x4000, 0xF000⟩, ⟨.seReg, 0x5000, 0xF000⟩, ⟨.ldImm, 0x6000, 0xF000⟩,
   ⟨.addImm, 0x7000, 0xF000⟩] ++
  [⟨.ldReg, 0x8000, 0xF00F⟩, ⟨.or, 0x8001, 0xF00F⟩, ⟨.and, 0x8002, 0xF00F⟩, ⟨.xor, 0x8003, 0xF00F⟩,
   ⟨.addReg, 0x8004, 0xF00F⟩, ⟨.sub, 0x8005, 0xF00F⟩, ⟨.shr, 0x8006, 0xF00F⟩, ⟨.subn, 0x8007, 0xF00F⟩,
   ⟨.shl, 0x800E, 0xF00F⟩] ++
  [⟨.sneReg, 0x9000, 0xF000⟩, ⟨.ldI, 0xA000, 0xF000⟩, ⟨.jpV0, 0xB000, 0xF000⟩, ⟨.rnd, 0xC000, 0xF000⟩,
   ⟨.drw, 0xD000, 0xF000⟩, ⟨.skp, 0xE09E, 0xF0FF⟩, ⟨.sknp, 0xE0A1, 0xF0FF⟩] ++
  [⟨.ldVxDt, 0xF007, 0xF0FF⟩, ⟨.ldVxK, 0xF00A, 0xF0FF⟩, ⟨.ldDtVx, 0xF015, 0xF0FF⟩, ⟨.ldStVx, 0xF018, 0xF0FF⟩,
   ⟨.addIVx, 0xF01E, 0xF0FF⟩, ⟨.ldFVx, 0xF029, 0xF0FF⟩, ⟨.ldBVx, 0xF033, 0xF0FF⟩, ⟨.stBlock, 0xF055, 0xF0FF⟩,
   ⟨.ldBlock, 0xF065, 0xF0FF⟩]

/-- The kind the table gives a word: the row it selects, UNKNOWN by default (R106). -/
def tableKind (w : Word) : Kind :=
  match opcodeTable.find? (·.selects w) with
  | some r => r.kind
  | none => .unknown

/-! ## The host's entry point -/

/-- The instruction the decoder reads from the table word `w` of `nbits` bits (bits above `nbits` zero), laid out as the
hardware stores it: one 16-bit word, high byte at the lower address (R65). -/
def decodeTableWord (nbits w : Nat) : Option Instr :=
  match decodeBytes (bytesOfWord (BitVec.ofNat 16 (w % 2 ^ nbits))) with
  | .ok (i, _) => some i
  | .error _ => none

end Sys2Proof
end

