-- ==== Sys2Proof/Config.lean ====
section
/-! DEFINITION. What is fixed for the machine: the parameters of `00_scope.md` R6 (their values are the spec's), and the
open parameters of R7 that have no value. The third open parameter of R7, FONT, has a default in the spec and stands in
`Sys2Proof/Machine/Font.lean`. -/

namespace Sys2Proof

/-- MEM_SIZE: bytes of memory (R6, R60). -/
def Config.memSize : Nat := 4096

/-- STACK_DEPTH: entries of the call stack (R6, R27). -/
def Config.stackDepth : Nat := 16

/-- NKEYS: key lines (R6, R215). -/
def Config.numKeys : Nat := 16

/-- LOAD_ORIGIN: the conventional program origin, and the reset value of IP (R6, R40, R322). -/
def Config.loadOrigin : Nat := 0x200

/-- SHIFT_AMOUNT (R7, D10): one fixed natural number for both shift instructions, which the source withholds.
A free value: no body. Log 1, DESIGN CHOICE of the form, safe. -/
opaque Config.shiftAmount : Nat

/-- RandomByte (R7, R185, D11): the byte the `n`-th draw delivers, under no law. A free value: no body.
Log 2, DESIGN CHOICE of the form, safe. -/
opaque Config.randomByte : Nat → Byte

end Sys2Proof
end

