-- ==== Sys2Proof/Machine/State.lean ====
section
/-! DEFINITION. The machine's state: every element of `10_state.md`, as plain data, and its reset values (R40); the
reasons a step can stop. -/

namespace Sys2Proof.Machine

/-- MEM (R33, R60) as a list of listed bytes in one canonical form: addresses strictly rising and below 4096, no entry
equal to what an unlisted address reads as (`Memory.unlisted`, `Memory.wf` in `Ops.lean`; log 5). -/
abbrev Memory := List Host.Cell

/-- DISP (R35): 32 rows from top to bottom; pixel `px` of a row is bit `px` of the row's 64 bits. The order of the bits
inside a row is the model's own and nothing in the spec depends on it; the packed bytes of D19 are `Display.packed`
(log 16). -/
abbrev Display := Vector (BitVec 64) 32

/-- An action of the host (R13, R325). The two pure reads `isWaitingForKey` and the dirty flag change no state and are
functions of the state (`HostOps.lean`). -/
inductive HostAction where
  /-- `loadProgram(bytes, offset)` (R72) -/
  | loadProgram (bytes : List Byte) (offset : Nat)
  /-- `keyDown(k)` (R225) -/
  | keyDown (k : Nat)
  /-- `keyUp(k)` (R226) -/
  | keyUp (k : Nat)
  /-- `tickDT` (R229) -/
  | tickDT
  /-- the display read, which clears DIRTY (R202, R36) -/
  | readDisplay
  deriving DecidableEq, Repr

/-- One turn of a run: the core executes one instruction, or the host acts (R13: "any interleaving of whole actions is a
run"). -/
inductive Turn where
  | core
  | host (a : HostAction)
  deriving DecidableEq, Repr

/-- The state of the machine. The last two fields are the model's own (log 2, log 6). -/
structure State where
  /-- V0 to VF (R20, R21) -/
  v : Vector Byte 16
  /-- I, the index register (R25) -/
  i : Word
  /-- IP, the program counter (R23) -/
  ip : Word
  /-- SP, the number of stacked return addresses (R26) -/
  sp : Byte
  /-- STACK[0] to STACK[15] (R27) -/
  stack : Vector Word 16
  /-- DT, the delay timer (R28) -/
  dt : Byte
  /-- ST, the sound timer (R30) -/
  st : Byte
  /-- KEYS, the key-state latch (R31) -/
  keys : BitVec 16
  /-- WAIT: a key-wait is pending (R32) -/
  wait : Bool
  /-- WAITREG: the register that will receive the key code (R32) -/
  waitReg : RegIndex
  /-- MEM (R33, R60) -/
  mem : Memory
  /-- DISP (R35) -/
  disp : Display
  /-- DIRTY (R36) -/
  dirty : Bool
  /-- the model's own: how many random bytes have been drawn (R185, D11; log 2) -/
  draws : Nat
  /-- the model's own: whose turn comes next; empty means the core's (R13; log 6) -/
  schedule : List Turn
  deriving DecidableEq, Repr

/-- Why a step has no next state. The hardware itself raises nothing (R290); these are faults of the model (R15, R296). -/
inductive Fault where
  /-- U1: CALL with SP at 16 or above (R146, R296). Raised by `execCall`. Safe (log 8). -/
  | stackOverflow
  /-- U2: RET with SP = 0 (R143, R296). Raised by `execRet`. Safe (log 8). -/
  | stackUnderflow
  /-- RET with SP above 16, where no stack entry exists; no defined run has such an SP (R38). Raised by `execRet`.
  Safe (log 9). -/
  | stackPointerOutOfRange
  /-- the core's turn while WAIT = 1: `step` is not enabled, the core is stuck until a `keyDown` (R222, I7). Raised by
  `coreStep`. Safe (log 7). -/
  | keyWaitPending
  deriving DecidableEq, Repr

/-- Why a step has no meaning. -/
inductive Refusal where
  /-- an instruction without a meaning yet; no arm uses it. Safe. -/
  | notModelled (mnemonic : String)
  /-- `keyDown` or `keyUp` with an index above 15: outside the interface, no transition (R227, I11). Raised by
  `hostStep`. Safe (log 10). -/
  | keyIndexOutOfRange
  deriving DecidableEq, Repr

/-- The state right after reset (R40, R320 to R322): the font in memory (nothing listed: an unlisted byte reads as its
reset value), IP = 0x0200, DIRTY = 1, everything else zero (the values of R40; log 4). The model's own fields: log 2,
log 6. -/
def State.reset : State where
  v := Vector.replicate 16 0
  i := 0
  ip := 0x0200
  sp := 0
  stack := Vector.replicate 16 0
  dt := 0
  st := 0
  keys := 0
  wait := false
  waitReg := 0
  mem := []
  disp := Vector.replicate 32 0
  dirty := true
  draws := 0
  schedule := []

end Sys2Proof.Machine
end

