-- ==== Sys2Proof/Machine/Font.lean ====
section
/-! DEFINITION. FONT, the configuration field of `00_scope.md` R7 and `10_state.md` R33, at its default: the conventional
hexadecimal font the spec tabulates from general knowledge (D22; log 3, PRESUMED, unsafe). Any other table is
`State.resetWith` (`Ops.lean`). -/

namespace Sys2Proof.Machine

/-- Glyphs 0 to 7, five bytes each, top row first (R33). -/
def fontLow : List Byte :=
  [0xF0, 0x90, 0x90, 0x90, 0xF0] ++ [0x20, 0x60, 0x20, 0x20, 0x70] ++
  [0xF0, 0x10, 0xF0, 0x80, 0xF0] ++ [0xF0, 0x10, 0xF0, 0x10, 0xF0] ++
  [0x90, 0x90, 0xF0, 0x10, 0x10] ++ [0xF0, 0x80, 0xF0, 0x10, 0xF0] ++
  [0xF0, 0x80, 0xF0, 0x90, 0xF0] ++ [0xF0, 0x10, 0x20, 0x40, 0x40]

/-- Glyphs 8 to F (R33). -/
def fontHigh : List Byte :=
  [0xF0, 0x90, 0xF0, 0x90, 0xF0] ++ [0xF0, 0x90, 0xF0, 0x10, 0xF0] ++
  [0xF0, 0x90, 0xF0, 0x90, 0x90] ++ [0xE0, 0x90, 0xE0, 0x90, 0xE0] ++
  [0xF0, 0x80, 0x80, 0x80, 0xF0] ++ [0xE0, 0x90, 0x90, 0x90, 0xE0] ++
  [0xF0, 0x80, 0xF0, 0x80, 0xF0] ++ [0xF0, 0x80, 0xF0, 0x80, 0x80]

/-- The default FONT: 16 glyphs of 5 bytes, MEM[0] to MEM[79] at reset (R33). -/
def font : List Byte := fontLow ++ fontHigh

end Sys2Proof.Machine
end

