-- ==== Sys2Proof/Machine/Ops.lean ====
section
/-! DEFINITION. The named operations over memory, registers, the stack and the display.

TAKING AN EXCEPTION: this hardware has none to take. It raises no exception and has no interrupt, trap entry or trap return
(`60_exceptions.md` R290 to R295), so there is no such operation here; the only mechanism that saves IP is CALL
(`State.push`) and RET returns from CALL only (`State.pop`) (R294, R295; log 24). -/

namespace Sys2Proof.Machine

/-! ## Memory -/

/-- What an address that the list does not name reads as: the reset contents, FONT in 0x000 to 0x04F and 0x00 above
(R33, R40; log 3, log 5). -/
def Memory.unlisted (a : Nat) : Byte := font.getD a 0

/-- The byte at an address. -/
def Memory.lookup : Memory → Nat → Byte
  | [], a => Memory.unlisted a
  | (k, b) :: m, a => if k = a then b else Memory.lookup m a

/-- Memory with the byte `b` at address `a`, in canonical form. -/
def Memory.put : Memory → Nat → Byte → Memory
  | [], a, b => if b = Memory.unlisted a then [] else [(a, b)]
  | (k, c) :: m, a, b =>
    if k < a then (k, c) :: Memory.put m a b
    else if k = a then if b = Memory.unlisted a then m else (a, b) :: m
    else if b = Memory.unlisted a then (k, c) :: m else (a, b) :: (k, c) :: m

/-- The list is in canonical form from address `lo` up. -/
def Memory.wfFrom (lo : Nat) : Memory → Bool
  | [] => true
  | (k, b) :: m => decide (lo ≤ k) && decide (k < Config.memSize) && b != Memory.unlisted k && Memory.wfFrom (k + 1) m

/-- The canonical form of memory: addresses strictly rising and below 4096, no entry equal to the unlisted byte. -/
def Memory.wf (m : Memory) : Bool := Memory.wfFrom 0 m

/-- `MemRead(addr, 1)`: 0x00 at 4096 and above (R62). -/
def Memory.read (m : Memory) (a : Word) : Byte :=
  if a.toNat < Config.memSize then Memory.lookup m a.toNat else 0

/-- `MemWrite(addr, 1, b)`: dropped at 4096 and above (R63). -/
def Memory.write (m : Memory) (a : Word) (b : Byte) : Memory :=
  if a.toNat < Config.memSize then Memory.put m a.toNat b else m

/-- `loadProgram` on memory: byte `j` of the image goes to `offset + j` while that is below 4096; the rest is discarded
(R72). -/
def Memory.load (m : Memory) (offset : Nat) : List Byte → Memory
  | [] => m
  | b :: bs => Memory.load (if offset < Config.memSize then Memory.put m offset b else m) (offset + 1) bs

/-- `MemRead` on the state (R62). -/
def State.memRead (s : State) (a : Word) : Byte := Memory.read s.mem a

/-- `MemWrite` on the state (R63). -/
def State.memWrite (s : State) (a : Word) (b : Byte) : State := { s with mem := Memory.write s.mem a b }

/-- `Fetch(addr)`: two clamped byte reads, high byte first, the second address modulo 65536 (R64, D16, D27; log 11,
log 22). -/
def State.fetchWord (s : State) (a : Word) : Word := wordOfBytes (s.memRead a) (s.memRead (a + 1))

/-- The reset state of a machine whose FONT is the given table (R7, R33, R40): the default font overwritten byte by byte.
`State.reset` is the case of the default table. -/
def State.resetWith (fontBytes : List Byte) : State :=
  { State.reset with mem := Memory.load [] 0 (fontBytes.take 80) }

/-! ## Registers -/

/-- `V[x]` (R10, R20). -/
def State.reg (s : State) (x : RegIndex) : Byte := s.v[x.toNat]'x.isLt

/-- `V[x] <- b`. No register is hardwired (R20). -/
def State.setReg (s : State) (x : RegIndex) (b : Byte) : State := { s with v := s.v.set x.toNat b x.isLt }

/-- VF (R21). -/
def vf : RegIndex := 15

/-- A one-bit flag as VF holds it: 0 or 1 (R29). -/
def flagByte (f : Bool) : Byte := if f then 1 else 0

/-- `VF <- flag` (R29). -/
def State.setFlag (s : State) (f : Bool) : State := s.setReg vf (flagByte f)

/-- `I <- a` (R25). -/
def State.setIndex (s : State) (a : Word) : State := { s with i := a }

/-- `IP <- target` (R10). -/
def State.setIp (s : State) (a : Word) : State := { s with ip := a }

/-- `IP <- (IP + pcInc) mod 65536` (R24, R140; the wrap is D16, log 11). -/
def State.advance (s : State) (pcInc : Nat) : State := { s with ip := s.ip + BitVec.ofNat 16 pcInc }

/-- `DT <- b` (R28). -/
def State.setDelay (s : State) (b : Byte) : State := { s with dt := b }

/-- `ST <- b` (R30). -/
def State.setSound (s : State) (b : Byte) : State := { s with st := b }

/-- `KEYS <- k` (R31). -/
def State.setKeys (s : State) (k : BitVec 16) : State := { s with keys := k }

/-- A key-wait begins: `WAITREG <- x`, `WAIT <- 1` (R221). -/
def State.beginWait (s : State) (x : RegIndex) : State := { s with wait := true, waitReg := x }

/-- A key-wait ends: `WAIT <- 0` (R225). -/
def State.endWait (s : State) : State := { s with wait := false }

/-- `RandomByte()`: the byte of this draw (R185; log 2). -/
def State.drawnByte (s : State) : Byte := Config.randomByte s.draws

/-- The draw is consumed: the next one is fresh (R185, D11; log 2). -/
def State.consumeDraw (s : State) : State := { s with draws := s.draws + 1 }

/-! ## The call stack -/

/-- `STACK[SP] <- a; SP <- SP + 1` (R146, D3; log 21). U1 when SP is 16 or above (R296). -/
def State.push (s : State) (a : Word) : Except Fault State :=
  if h : s.sp.toNat < 16 then .ok { s with stack := s.stack.set s.sp.toNat a h, sp := s.sp + 1 }
  else .error .stackOverflow

/-- `SP <- SP - 1`, and the entry `STACK[SP]` then on top (R143, D3; log 21). U2 when SP is 0 (R296); above 16 no entry
exists (log 9). -/
def State.pop (s : State) : Except Fault (Word × State) :=
  if s.sp = 0 then .error .stackUnderflow
  else if h : s.sp.toNat - 1 < 16 then .ok (s.stack[s.sp.toNat - 1]'h, { s with sp := s.sp - 1 })
  else .error .stackPointerOutOfRange

/-! ## The display -/

/-- `DISP[px, py]` (R10, R35). -/
def Display.pixel (d : Display) (px : Fin 64) (py : Fin 32) : Bool := (d[py.val]'py.isLt).getLsbD px.val

/-- `DISP[px, py] <- DISP[px, py] ^ 1` (R201). -/
def Display.flip (d : Display) (px : Fin 64) (py : Fin 32) : Display :=
  d.set py.val (d[py.val]'py.isLt ^^^ BitVec.twoPow 64 px.val) py.isLt

/-- The display with all 2048 pixels 0 (R200). -/
def Display.blank : Display := Vector.replicate 32 0

/-- Byte `n` of the packed bitmap (R35, D19; log 16): byte `8 × py + (px >> 3)` holds pixel `(px, py)` in bit
`7 - (px & 7)`, so bit `b` of byte `n` is the pixel of row `n / 8` and column `8 × (n mod 8) + (7 - b)`. -/
def Display.packedByte (d : Display) (n : Nat) : Byte :=
  BitVec.ofBoolListBE
    [d.pixel (.ofNat 64 (8 * n)) (.ofNat 32 (n / 8)), d.pixel (.ofNat 64 (8 * n + 1)) (.ofNat 32 (n / 8)),
     d.pixel (.ofNat 64 (8 * n + 2)) (.ofNat 32 (n / 8)), d.pixel (.ofNat 64 (8 * n + 3)) (.ofNat 32 (n / 8)),
     d.pixel (.ofNat 64 (8 * n + 4)) (.ofNat 32 (n / 8)), d.pixel (.ofNat 64 (8 * n + 5)) (.ofNat 32 (n / 8)),
     d.pixel (.ofNat 64 (8 * n + 6)) (.ofNat 32 (n / 8)), d.pixel (.ofNat 64 (8 * n + 7)) (.ofNat 32 (n / 8))]

/-- The packed bitmap: 256 bytes (R35, D19; log 16). -/
def Display.packed (d : Display) : List Byte := (List.range 256).map (Display.packedByte d)

/-- `DISP <- d; DIRTY <- 1`: every instruction that writes the display marks it dirty (R36). -/
def State.setDisplay (s : State) (d : Display) : State := { s with disp := d, dirty := true }

/-- `DIRTY <- 0` (R36, D20; log 16). -/
def State.clearDirty (s : State) : State := { s with dirty := false }

/-- What a draw works on: the display so far, and whether a set pixel has been met (R201). -/
structure Canvas where
  disp : Display
  collision : Bool
  deriving DecidableEq, Repr

/-- One set sprite bit at `(px, py)`: the collision is noted if the pixel is set, then the pixel is flipped (R201, D17;
log 13). -/
def Canvas.hit (c : Canvas) (px : Fin 64) (py : Fin 32) : Canvas :=
  { disp := c.disp.flip px py, collision := c.collision || c.disp.pixel px py }

/-- The first `cols` columns of one sprite row: bit 7 of the byte is the leftmost pixel; columns wrap modulo 64 (R201). -/
def Canvas.drawColumns (c : Canvas) (b : Byte) (vx : Nat) (py : Fin 32) : Nat → Canvas
  | 0 => c
  | col + 1 =>
    let c' := Canvas.drawColumns c b vx py col
    if b.getLsbD (7 - col) then c'.hit (.ofNat 64 (vx + col)) py else c'

/-- The first `rows` rows of a sprite: row `r` is the byte at `I + r` (modulo 65536); rows wrap modulo 32 (R201). -/
def Canvas.drawRows (c : Canvas) (m : Memory) (i : Word) (vx vy : Nat) : Nat → Canvas
  | 0 => c
  | row + 1 =>
    Canvas.drawColumns (Canvas.drawRows c m i vx vy row) (Memory.read m (i + BitVec.ofNat 16 row)) vx
      (.ofNat 32 (vy + row)) 8

/-! ## Block transfers -/

/-- Block store of the first `n` registers: one byte per register at I, I advanced by one per byte (R239, D15, D16;
log 11, log 20). -/
def State.storeRegs (s : State) : Nat → State
  | 0 => s
  | k + 1 =>
    let s' := State.storeRegs s k
    (s'.memWrite s'.i (s'.reg (BitVec.ofNat 4 k))).setIndex (s'.i + 1)

/-- Block load of the first `n` registers: one byte per register from I, I advanced by one per byte (R240, D15, D16;
log 11, log 20). -/
def State.loadRegs (s : State) : Nat → State
  | 0 => s
  | k + 1 =>
    let s' := State.loadRegs s k
    (s'.setReg (BitVec.ofNat 4 k) (s'.memRead s'.i)).setIndex (s'.i + 1)

/-! ## The end of an instruction -/

/-- The instruction is complete with the given `pcInc` (R140, R142). -/
def done (pcInc : Nat) (s : State) : Host.Outcome State Fault Refusal := .next (s.advance pcInc)

end Sys2Proof.Machine
end

