-- ==== Sys2Proof/Machine/Operands.lean ====
section
/-! DEFINITION. The operand forms (`30_encoding.md` R95, `45_index_memory.md` R241): registers by index, zero-extended
immediates, and memory through I. There are no others. -/

namespace Sys2Proof.Machine

/-- `zext_16(nnn)`: an address immediate where it meets a 16-bit register (R95). -/
def addressOperand (nnn : Address) : Word := nnn.setWidth 16

/-- `zext_16(V[x])`: a register value where it meets a 16-bit register (R9). -/
def State.wideReg (s : State) (x : RegIndex) : Word := (s.reg x).setWidth 16

/-- `(V[x] & 0xF) × 5`: the address of the glyph the low nibble names (R237). -/
def glyphAddress (b : Byte) : Word := (b &&& 0xF).setWidth 16 * 5

/-- `zext_8(k)`: the key code of key `k` (R225). -/
def keyCode (k : BitVec 4) : Byte := k.setWidth 8

/-- `(k <= 15) and (KEYS[k] == 1)` for a register value `k`: a value above 15 names no key and counts as not pressed
(R216, R217, D12; log 17). -/
def State.keyPressed (s : State) (k : Byte) : Bool := decide (k.toNat ≤ 15) && s.keys.getLsbD k.toNat

end Sys2Proof.Machine
end

