-- ==== Sys2Proof/Machine/Flags.lean ====
section
/-! DEFINITION. The ALU and every flag it computes (`42_load_alu.md` R170 to R172, R176; `10_state.md` R29). -/

namespace Sys2Proof.Machine

/-- The ALU's operations (R170). -/
inductive AluOp where
  | passB | or | and | xor | add | sub | subn | shr | shl
  deriving DecidableEq, Repr

/-- An 8-bit result and, for five operations, a flag (R170). -/
structure AluResult where
  result : Byte
  flag : Option Bool
  deriving DecidableEq, Repr

/-- The carry of an 8-bit addition: the unsigned sum exceeds 255 (R177). -/
def carryFlag (a b : Byte) : Bool := decide (a.toNat + b.toNat > 255)

/-- The flag of SUB and SUBN: strictly greater, so 0 for equal operands (R181, R183, C7). -/
def greaterFlag (a b : Byte) : Bool := decide (a.toNat > b.toNat)

/-- `ALU(op, a, b)`, a pure function of the operands and SHIFT_AMOUNT (R170). Results wrap modulo 256 (R176); the flag of
a shift is bit 0 or bit 7 of the old value whatever the amount (R182, R184). -/
def alu (op : AluOp) (a b : Byte) : AluResult :=
  match op with
  | .passB => ⟨b, none⟩
  | .or => ⟨a ||| b, none⟩
  | .and => ⟨a &&& b, none⟩
  | .xor => ⟨a ^^^ b, none⟩
  | .add => ⟨a + b, some (carryFlag a b)⟩
  | .sub => ⟨a - b, some (greaterFlag a b)⟩
  | .subn => ⟨b - a, some (greaterFlag b a)⟩
  | .shr => ⟨a >>> Config.shiftAmount, some (a.getLsbD 0)⟩
  | .shl => ⟨a <<< Config.shiftAmount, some (a.getLsbD 7)⟩

/-- `V[x] <- ALU(op, V[x], b)`: the operands are read first (R171), the result is written, and then the flag, where the
operation has one, to VF, so that with x = 15 the flag wins (R172, D9; log 12). -/
def State.aluWrite (s : State) (op : AluOp) (x : RegIndex) (b : Byte) : State :=
  let r := alu op (s.reg x) b
  let s' := s.setReg x r.result
  match r.flag with
  | none => s'
  | some f => s'.setFlag f

/-- `V[x] <- ALU(op, V[x], b)` with the flag discarded (R175, R107). -/
def State.aluWriteNoFlag (s : State) (op : AluOp) (x : RegIndex) (b : Byte) : State :=
  s.setReg x (alu op (s.reg x) b).result

end Sys2Proof.Machine
end

