-- ==== Sys2Proof/Machine/ControlFlow.lean ====
section
/-! DEFINITION. Control transfer: RET, JP, JP V0, CALL (`40_control_flow.md` R143 to R146). Each writes IP itself
(`pcInc` = 0, R141). -/

namespace Sys2Proof.Machine

/-- RET (R143): pop the stack into IP. U2 on an empty stack (R296). -/
def execRet (s : State) : Host.Outcome State Fault Refusal :=
  match s.pop with
  | .ok (target, s') => .next (s'.setIp target)
  | .error f => .fault f

/-- JP addr (R144). -/
def execJp (nnn : Address) (s : State) : Host.Outcome State Fault Refusal :=
  .next (s.setIp (addressOperand nnn))

/-- JP V0, addr (R145): the sum is a 16-bit number, not reduced modulo 4096. -/
def execJpV0 (nnn : Address) (s : State) : Host.Outcome State Fault Refusal :=
  .next (s.setIp (addressOperand nnn + s.wideReg 0))

/-- CALL addr (R146): push IP + 2, the address of the next instruction, and jump. U1 on a full stack (R296). -/
def execCall (nnn : Address) (s : State) : Host.Outcome State Fault Refusal :=
  match s.push (s.ip + 2) with
  | .ok s' => .next (s'.setIp (addressOperand nnn))
  | .error f => .fault f

end Sys2Proof.Machine
end

