-- ==== Sys2Proof/Machine/Draw.lean ====
section
/-! DEFINITION. Display instructions: CLS, DRW (`43_display.md` R200, R201). Both have `pcInc` = 2. -/

namespace Sys2Proof.Machine

/-- CLS (R200): zero the bitmap, mark dirty. -/
def execCls (s : State) : Host.Outcome State Fault Refusal := done 2 (s.setDisplay Display.blank)

/-- DRW Vx, Vy, #n (R201): the sprite at I, `n` rows, exclusive-ored at (V[x], V[y]) with wraparound; VF is the collision;
the coordinates are read before VF is written; I and memory are not changed. -/
def execDrw (x y : RegIndex) (n : BitVec 4) (s : State) : Host.Outcome State Fault Refusal :=
  let c := Canvas.drawRows ⟨s.disp, false⟩ s.mem s.i (s.reg x).toNat (s.reg y).toNat n.toNat
  done 2 ((s.setDisplay c.disp).setFlag c.collision)

end Sys2Proof.Machine
end

