-- ==== Sys2Proof/Machine/IndexMemory.lean ====
section
/-! DEFINITION. Index-register and memory instructions (`45_index_memory.md` R235 to R240). Each has `pcInc` = 2 and writes
no flag. -/

namespace Sys2Proof.Machine

/-- LD I, addr (R235, D25; log 25). -/
def execLdI (nnn : Address) (s : State) : Host.Outcome State Fault Refusal := done 2 (s.setIndex (addressOperand nnn))

/-- ADD I, Vx (R236): modulo 65536 (D16; log 11), no overflow flag. -/
def execAddIVx (x : RegIndex) (s : State) : Host.Outcome State Fault Refusal := done 2 (s.setIndex (s.i + s.wideReg x))

/-- LD F, Vx (R237). -/
def execLdFVx (x : RegIndex) (s : State) : Host.Outcome State Fault Refusal :=
  done 2 (s.setIndex (glyphAddress (s.reg x)))

/-- LD B, Vx (R238): a no-op, "intentionally unimplemented". -/
def execLdBVx (_x : RegIndex) (s : State) : Host.Outcome State Fault Refusal := done 2 s

/-- LD [I], Vx (R239, C5): V0 to V[x] to memory, I advanced by x + 1. -/
def execStBlock (x : RegIndex) (s : State) : Host.Outcome State Fault Refusal := done 2 (s.storeRegs (x.toNat + 1))

/-- LD Vx, [I] (R240, C5): V0 to V[x] from memory, I advanced by x + 1. -/
def execLdBlock (x : RegIndex) (s : State) : Host.Outcome State Fault Refusal := done 2 (s.loadRegs (x.toNat + 1))

end Sys2Proof.Machine
end

