-- ==== Sys2Proof/Machine/Skip.lean ====
section
/-! DEFINITION. Skip and compare: SE, SNE (`41_skip_compare.md` R160 to R163). No register or flag is written; the only
effect is the value of `pcInc`. -/

namespace Sys2Proof.Machine

/-- A skip: `pcInc` = 4 if the condition holds, else 2 (R141). -/
def skipIf (c : Bool) (s : State) : Host.Outcome State Fault Refusal := done (if c then 4 else 2) s

/-- SE Vx, #kk (R160). -/
def execSeImm (x : RegIndex) (kk : Byte) (s : State) : Host.Outcome State Fault Refusal := skipIf (s.reg x == kk) s

/-- SNE Vx, #kk (R161). -/
def execSneImm (x : RegIndex) (kk : Byte) (s : State) : Host.Outcome State Fault Refusal := skipIf (s.reg x != kk) s

/-- SE Vx, Vy (R162). -/
def execSeReg (x y : RegIndex) (s : State) : Host.Outcome State Fault Refusal := skipIf (s.reg x == s.reg y) s

/-- SNE Vx, Vy (R163). -/
def execSneReg (x y : RegIndex) (s : State) : Host.Outcome State Fault Refusal := skipIf (s.reg x != s.reg y) s

end Sys2Proof.Machine
end

