-- ==== Sys2Proof/Machine/KeysTimers.lean ====
section
/-! DEFINITION. Key and timer instructions: SKP, SKNP, LD Vx,DT, LD DT,Vx, LD ST,Vx, LD Vx,K (`44_keys_timers.md` R216 to
R221). -/

namespace Sys2Proof.Machine

/-- SKP Vx (R216). -/
def execSkp (x : RegIndex) (s : State) : Host.Outcome State Fault Refusal := skipIf (s.keyPressed (s.reg x)) s

/-- SKNP Vx (R217). -/
def execSknp (x : RegIndex) (s : State) : Host.Outcome State Fault Refusal := skipIf (!s.keyPressed (s.reg x)) s

/-- LD Vx, DT (R218). -/
def execLdVxDt (x : RegIndex) (s : State) : Host.Outcome State Fault Refusal := done 2 (s.setReg x s.dt)

/-- LD DT, Vx (R219). -/
def execLdDtVx (x : RegIndex) (s : State) : Host.Outcome State Fault Refusal := done 2 (s.setDelay (s.reg x))

/-- LD ST, Vx (R220). -/
def execLdStVx (x : RegIndex) (s : State) : Host.Outcome State Fault Refusal := done 2 (s.setSound (s.reg x))

/-- LD Vx, K (R221): latch the register, begin the wait; IP advances in the same step (D14, C3; log 19). The register is
written later, by the host's `keyDown` (R225). -/
def execLdVxK (x : RegIndex) (s : State) : Host.Outcome State Fault Refusal := done 2 (s.beginWait x)

end Sys2Proof.Machine
end

