-- ==== Sys2Proof/Machine/LoadAlu.lean ====
section
/-! DEFINITION. Load, arithmetic, logic, shift and random instructions (`42_load_alu.md` R173 to R185). Each has
`pcInc` = 2 and accesses no memory besides its fetch. -/

namespace Sys2Proof.Machine

/-- LD Vx, #kk (R173). -/
def execLdImm (x : RegIndex) (kk : Byte) (s : State) : Host.Outcome State Fault Refusal :=
  done 2 (s.aluWrite .passB x kk)

/-- LD Vx, Vy (R174). -/
def execLdReg (x y : RegIndex) (s : State) : Host.Outcome State Fault Refusal :=
  done 2 (s.aluWrite .passB x (s.reg y))

/-- ADD Vx, #kk (R175): without flag effect. -/
def execAddImm (x : RegIndex) (kk : Byte) (s : State) : Host.Outcome State Fault Refusal :=
  done 2 (s.aluWriteNoFlag .add x kk)

/-- ADD Vx, Vy (R177): VF is the carry. -/
def execAddReg (x y : RegIndex) (s : State) : Host.Outcome State Fault Refusal :=
  done 2 (s.aluWrite .add x (s.reg y))

/-- OR Vx, Vy (R178): no flag effect. -/
def execOr (x y : RegIndex) (s : State) : Host.Outcome State Fault Refusal :=
  done 2 (s.aluWrite .or x (s.reg y))

/-- AND Vx, Vy (R179): no flag effect. -/
def execAnd (x y : RegIndex) (s : State) : Host.Outcome State Fault Refusal :=
  done 2 (s.aluWrite .and x (s.reg y))

/-- XOR Vx, Vy (R180): no flag effect. -/
def execXor (x y : RegIndex) (s : State) : Host.Outcome State Fault Refusal :=
  done 2 (s.aluWrite .xor x (s.reg y))

/-- SUB Vx, Vy (R181): VF = 1 exactly when V[x] > V[y]. -/
def execSub (x y : RegIndex) (s : State) : Host.Outcome State Fault Refusal :=
  done 2 (s.aluWrite .sub x (s.reg y))

/-- SUBN Vx, Vy (R183): VF = 1 exactly when V[y] > V[x]. -/
def execSubn (x y : RegIndex) (s : State) : Host.Outcome State Fault Refusal :=
  done 2 (s.aluWrite .subn x (s.reg y))

/-- SHR Vx, Vy (R182): V[x] is shifted, V[y] is ignored; VF is the old bit 0. -/
def execShr (x _y : RegIndex) (s : State) : Host.Outcome State Fault Refusal :=
  done 2 (s.aluWrite .shr x 0)

/-- SHL Vx, Vy (R184): V[x] is shifted, V[y] is ignored; VF is the old bit 7. -/
def execShl (x _y : RegIndex) (s : State) : Host.Outcome State Fault Refusal :=
  done 2 (s.aluWrite .shl x 0)

/-- RND Vx, #kk (R185): a fresh byte masked by the immediate; no flag. -/
def execRnd (x : RegIndex) (kk : Byte) (s : State) : Host.Outcome State Fault Refusal :=
  done 2 ((s.setReg x (s.drawnByte &&& kk)).consumeDraw)

end Sys2Proof.Machine
end

