-- ==== Sys2Proof/Machine/Unknown.lean ====
section
/-! DEFINITION. The Unknown kind (`46_unknown.md` R255). -/

namespace Sys2Proof.Machine

/-- UNKNOWN (R255): "no-op, pcInc remains 2 (silent recovery, never a fault)". -/
def execUnknown (s : State) : Host.Outcome State Fault Refusal := done 2 s

end Sys2Proof.Machine
end

