-- ==== Sys2Proof/Machine/HostOps.lean ====
section
/-! DEFINITION. The host's operations (`70_reset_and_hazards.md` R325; `44_keys_timers.md` R223 to R229; `20_memory.md` R72;
`43_display.md` R202). Each is one atomic transaction between two steps (R73, D1; log 6). -/

namespace Sys2Proof.Machine

/-- `loadProgram(bytes, offset)`: MEM only (R72, D29; log 18). -/
def State.loadProgram (s : State) (bytes : List Byte) (offset : Nat) : State :=
  { s with mem := Memory.load s.mem offset bytes }

/-- `keyDown(k)`: the latch bit is set; a pending key-wait receives the key code and ends (R225). -/
def State.keyDown (s : State) (k : BitVec 4) : State :=
  let s' := s.setKeys (s.keys ||| BitVec.twoPow 16 k.toNat)
  if s'.wait then (s'.setReg s'.waitReg (keyCode k)).endWait else s'

/-- `keyUp(k)`: the latch bit is cleared; nothing else (R226). -/
def State.keyUp (s : State) (k : BitVec 4) : State := s.setKeys (s.keys &&& ~~~BitVec.twoPow 16 k.toNat)

/-- `tickDT`: DT - 1 if DT is not 0 (R229). -/
def State.tickDT (s : State) : State := if s.dt = 0 then s else s.setDelay (s.dt - 1)

/-- `isWaitingForKey()`: a pure read of WAIT (R223). -/
def State.isWaitingForKey (s : State) : Bool := s.wait

/-- The dirty flag the host reads (R36, R202, R325). -/
def State.dirtyFlag (s : State) : Bool := s.dirty

/-- The display read: what the host sees, the packed bitmap of DISP (R202, D19; log 16). -/
def State.displayOutput (s : State) : List Byte := s.disp.packed

/-- One action of the host. A key index above 15 is outside the interface: no transition (R227, D26; log 10). -/
def hostStep (a : HostAction) (s : State) : Host.Outcome State Fault Refusal :=
  match a with
  | .loadProgram bytes offset => .next (s.loadProgram bytes offset)
  | .keyDown k => if k < Config.numKeys then .next (s.keyDown (BitVec.ofNat 4 k)) else .refused .keyIndexOutOfRange
  | .keyUp k => if k < Config.numKeys then .next (s.keyUp (BitVec.ofNat 4 k)) else .refused .keyIndexOutOfRange
  | .tickDT => .next s.tickDT
  | .readDisplay => .next s.clearDirty

end Sys2Proof.Machine
end

