-- ==== Sys2Proof/Machine/Cycle.lean ====
section
/-! DEFINITION. The step cycle (`40_control_flow.md` R140): fetch, decode, execute, gated by WAIT (`44_keys_timers.md`
R222); and the turn of a run, which is the core's or the host's (`00_scope.md` R13). -/

namespace Sys2Proof.Machine

/-- The core's action `step` (R140): enabled only if WAIT = 0; a core that waits is stuck (R222, D13; log 7). -/
def coreStep (s : State) : Host.Outcome State Fault Refusal :=
  if s.wait then .fault .keyWaitPending else exec (decode (s.fetchWord s.ip)) s

/-- One turn of a run: the next of `schedule`, the core's when the list is empty (R13, R73; log 6). -/
def takeTurn (s : State) : Host.Outcome State Fault Refusal :=
  match s.schedule with
  | [] => coreStep s
  | .core :: rest => coreStep { s with schedule := rest }
  | .host a :: rest => hostStep a { s with schedule := rest }

/-- Where a word can be placed to be fetched next: IP if both its bytes are memory, else the load origin (log 15). -/
def State.fetchHome (s : State) : Word :=
  if s.ip.toNat + 1 < Config.memSize then s.ip else BitVec.ofNat 16 Config.loadOrigin

/-- The state in which the very next turn fetches and runs the word `w`: the word stands at IP, high byte first, the turn is
the core's and no key-wait is pending (R64, R65, R222; log 15). -/
def State.placeWord (s : State) (w : Word) : State :=
  let a := s.fetchHome
  { s with
    ip := a, wait := false, schedule := [],
    mem := Memory.write (Memory.write s.mem a (w.extractLsb' 8 8)) (a + 1) (w.extractLsb' 0 8) }

end Sys2Proof.Machine
end

