-- ==== Sys2Proof/Machine/Assembler.lean ====
section
/-! DEFINITION. The assembler's side of the encoding (`30_encoding.md` R120 to R131): a pure function from source text and
an origin to bytes; it reads and writes no machine state. `00_scope.md` R5 leaves the tokenizer and the assembler out of
scope as machines; what R120 to R131 record of them is modelled here, and the choices they leave are log 30. -/

namespace Sys2Proof.Machine

/-! ## Tokens (R120 to R123) -/

/-- The mnemonics of R127. -/
inductive Mnemonic where
  | cls | ret | jp | call | se | sne | ld | add | or | and | xor | sub | subn | shr | shl | rnd | drw | skp | sknp
  deriving DecidableEq, Repr

/-- The reserved keywords of R122: register names, pseudo-registers, mnemonics. -/
inductive Keyword where
  | reg (x : RegIndex)
  | dt | st | index | key | font | bcd
  | mnemonic (m : Mnemonic)
  deriving DecidableEq, Repr

/-- The six kinds of token, with the number of an immediate or the keyword (R120). -/
inductive TokenKind where
  | label
  | keyword (k : Keyword)
  | directive
  | immediate (value : Int)
  | identifier
  /-- no rule says what text gives one (R121); the tokenizer gives none -/
  | expression
  deriving DecidableEq, Repr

/-- A token: its text (of a label or an identifier, the name in upper case, R122), its 0-based line, its kind (R120). -/
structure Token where
  text : List Char
  line : Nat
  kind : TokenKind
  deriving DecidableEq, Repr

/-- The errors of R125. -/
inductive AsmReason where
  | unparsableImmediate
  | undeclaredIdentifier
  | strayToken
  | missingDestination
  | missingSource
  | invalidRegisterName
  | missingCount
  | noImmediateForm
  /-- an immediate that does not fit its field: refused (R123, D32) -/
  | immediateOutOfRange
  /-- a directive has no defined output (R130, `93_implementation_defined.md` I19) -/
  | directive
  /-- an identifier or an operand keyword where an instruction or a label is due, or a second mnemonic on a line (log 30) -/
  | unexpectedToken
  deriving DecidableEq, Repr

/-- "Each is line-numbered" (R125). -/
structure AsmError where
  line : Nat
  reason : AsmReason
  deriving DecidableEq, Repr

/-- Upper case of a letter. -/
def upperChar (c : Char) : Char := if 'a' ≤ c ∧ c ≤ 'z' then Char.ofNat (c.toNat - 32) else c

/-- The value of a hexadecimal digit of either case. -/
def hexValue (c : Char) : Option Nat :=
  if '0' ≤ c ∧ c ≤ '9' then some (c.toNat - 48)
  else if 'A' ≤ upperChar c ∧ upperChar c ≤ 'F' then some ((upperChar c).toNat - 55)
  else none

/-- The number that digits of a base spell, the most significant first; none without digits or with a wrong one. -/
def digitsValue (base : Nat) (cs : List Char) : Option Nat :=
  if cs.isEmpty then none
  else cs.foldl (fun acc c =>
    match acc, hexValue c with
    | some v, some d => if d < base then some (v * base + d) else none
    | _, _ => none) (some 0)

/-- An unsigned literal, `0x` hexadecimal or decimal (R121, R123). That an upper-case `0X` is hexadecimal too is the model's
choice: the spec names `0x` only (log 30, DESIGN CHOICE). -/
def literalValue (cs : List Char) : Option Nat :=
  match cs with
  | '0' :: 'x' :: rest | '0' :: 'X' :: rest => digitsValue 16 rest
  | _ => digitsValue 10 cs

/-- The text after `#`, a signed integer (R121, R123). -/
def immediateValue (cs : List Char) : Option Int :=
  match cs with
  | '-' :: rest => (literalValue rest).map fun n => -(n : Int)
  | _ => (literalValue cs).map fun n => (n : Int)

/-- The mnemonic that an upper-case text spells (R127). -/
def mnemonicOfText (cs : List Char) : Option Mnemonic :=
  [(['C', 'L', 'S'], Mnemonic.cls), (['R', 'E', 'T'], .ret), (['J', 'P'], .jp), (['C', 'A', 'L', 'L'], .call),
   (['S', 'E'], .se), (['S', 'N', 'E'], .sne), (['L', 'D'], .ld), (['A', 'D', 'D'], .add), (['O', 'R'], .or),
   (['A', 'N', 'D'], .and), (['X', 'O', 'R'], .xor), (['S', 'U', 'B'], .sub), (['S', 'U', 'B', 'N'], .subn),
   (['S', 'H', 'R'], .shr), (['S', 'H', 'L'], .shl), (['R', 'N', 'D'], .rnd), (['D', 'R', 'W'], .drw),
   (['S', 'K', 'P'], .skp), (['S', 'K', 'N', 'P'], .sknp)].lookup cs

/-- The keyword that an upper-case text spells (R122). -/
def keywordOfText (cs : List Char) : Option Keyword :=
  match cs with
  | ['D', 'T'] => some .dt
  | ['S', 'T'] => some .st
  | ['I'] => some .index
  | ['K'] => some .key
  | ['F'] => some .font
  | ['B'] => some .bcd
  | ['V', d] => (hexValue d).map fun n => .reg (BitVec.ofNat 4 n)
  | _ => (mnemonicOfText cs).map .mnemonic

/-- The class of one token, in the order of R121. -/
def classify (line : Nat) (cs : List Char) : Except AsmError Token :=
  let name := cs.map upperChar
  match cs with
  | '.' :: _ => .ok ⟨cs, line, .directive⟩
  | '#' :: rest =>
    match immediateValue rest with
    | some v => .ok ⟨cs, line, .immediate v⟩
    | none => .error ⟨line, .unparsableImmediate⟩
  | _ =>
    if cs.getLast? = some ':' then .ok ⟨name.dropLast, line, .label⟩
    else match keywordOfText name with
      | some k => .ok ⟨cs, line, .keyword k⟩
      | none => .ok ⟨name, line, .identifier⟩

/-- Comma or whitespace separates (R120). Which characters are whitespace is the model's choice, since the spec lists none:
space, tab and carriage return; a line ends at a newline alone, and any other character stays in its token (log 30, DESIGN
CHOICE). -/
def isSeparator (c : Char) : Bool := c == ' ' || c == ',' || c == '\t' || c == '\r'

/-- The pieces of a text between characters that `sep` accepts, the empty ones too; `acc` holds the piece at hand. -/
def splitOn (sep : Char → Bool) (acc : List Char) : List Char → List (List Char)
  | [] => [acc]
  | c :: cs => if sep c then acc :: splitOn sep [] cs else splitOn sep (acc ++ [c]) cs

/-- The tokens of one line, in order (R120); the first bad immediate ends it (R121). -/
def tokenizeLine (line : Nat) (cs : List Char) : Except AsmError (List Token) :=
  ((splitOn isSeparator [] cs).filter (!·.isEmpty)).mapM (classify line)

/-! ## Instructions (R126 to R128) -/

/-- The symbol table: upper-case names and 12-bit addresses (R124). -/
abbrev Symbols := List (List Char × Address)

/-- What an operand is read in: the symbols bound so far, the address `$` stands for, the line (R124). -/
structure AsmContext where
  symbols : Symbols
  here : Address
  line : Nat
  deriving DecidableEq, Repr

/-- An address operand: an immediate, packed as `address & 0xFFF`, or an identifier bound before (R123, R124). -/
def parseAddress (c : AsmContext) (missing : AsmReason) : List Token → Except AsmError (Address × List Token)
  | [] => .error ⟨c.line, missing⟩
  | t :: rest =>
    match t.kind with
    | .immediate v => .ok (BitVec.ofInt 12 v, rest)
    | .identifier =>
      if t.text = ['$'] then .ok (c.here, rest)
      else match c.symbols.lookup t.text with
        | some a => .ok (a, rest)
        | none => .error ⟨c.line, .undeclaredIdentifier⟩
    | _ => .error ⟨c.line, missing⟩

/-- A register operand (R125: "invalid register name", "no-immediate-form-available"). -/
def parseReg (c : AsmContext) (missing : AsmReason) : List Token → Except AsmError (RegIndex × List Token)
  | [] => .error ⟨c.line, missing⟩
  | t :: rest =>
    match t.kind with
    | .keyword (.reg x) => .ok (x, rest)
    | .immediate _ => .error ⟨c.line, .noImmediateForm⟩
    | _ => .error ⟨c.line, .invalidRegisterName⟩

/-- A byte immediate, 0 to 255 (R123, D32). -/
def byteOfImmediate (c : AsmContext) (v : Int) : Except AsmError Byte :=
  if 0 ≤ v ∧ v < 256 then .ok (BitVec.ofInt 8 v) else .error ⟨c.line, .immediateOutOfRange⟩

/-- The 4-bit count of DRW, 0 to 15 (R125, D32). -/
def parseCount (c : AsmContext) : List Token → Except AsmError (BitVec 4 × List Token)
  | [] => .error ⟨c.line, .missingCount⟩
  | t :: rest =>
    match t.kind with
    | .immediate v => if 0 ≤ v ∧ v < 16 then .ok (BitVec.ofInt 4 v, rest) else .error ⟨c.line, .immediateOutOfRange⟩
    | _ => .error ⟨c.line, .missingCount⟩

/-- `Vx` alone. -/
def parseDst (c : AsmContext) (f : RegIndex → Instr) (ts : List Token) : Except AsmError (Instr × List Token) := do
  let (x, rest) ← parseReg c .missingDestination ts
  return (f x, rest)

/-- `Vx, Vy`. -/
def parseDstSrc (c : AsmContext) (f : RegIndex → RegIndex → Instr) (ts : List Token) :
    Except AsmError (Instr × List Token) := do
  let (x, ts) ← parseReg c .missingDestination ts
  let (y, rest) ← parseReg c .missingSource ts
  return (f x y, rest)

/-- `Vx, #kk`, or `Vx, Vy` where the mnemonic has that form. -/
def parseDstByte (c : AsmContext) (byteForm : RegIndex → Byte → Instr) (regForm : Option (RegIndex → RegIndex → Instr))
    (ts : List Token) : Except AsmError (Instr × List Token) := do
  let (x, ts) ← parseReg c .missingDestination ts
  match ts with
  | [] => .error ⟨c.line, .missingSource⟩
  | t :: rest =>
    match t.kind, regForm with
    | .immediate v, _ => return (byteForm x (← byteOfImmediate c v), rest)
    | .keyword (.reg y), some f => return (f x y, rest)
    | _, _ => .error ⟨c.line, .invalidRegisterName⟩

/-- An address. -/
def parseAddr (c : AsmContext) (f : Address → Instr) (ts : List Token) : Except AsmError (Instr × List Token) := do
  let (a, rest) ← parseAddress c .missingDestination ts
  return (f a, rest)

/-- `JP addr`, or `JP V0, addr` if the first operand is exactly V0 (R126). -/
def parseJp (c : AsmContext) (ts : List Token) : Except AsmError (Instr × List Token) :=
  match ts with
  | t :: rest =>
    if t.kind = .keyword (.reg 0) then do
      let (a, rest) ← parseAddress c .missingSource rest
      return (.jpV0 a, rest)
    else parseAddr c .jp ts
  | [] => parseAddr c .jp ts

/-- A pseudo-register followed by a register. -/
def parsePseudo (c : AsmContext) (f : RegIndex → Instr) (ts : List Token) : Except AsmError (Instr × List Token) := do
  let (x, rest) ← parseReg c .missingSource ts
  return (f x, rest)

/-- Is the token the operand `[I]` of R127? To the tokenizer it is an identifier (R121, N21), so a label of that name can be
bound and used as an address. LD takes it as memory at I where no address can stand (log 30). -/
def Token.isIndexMemory (t : Token) : Bool := t.kind == .identifier && t.text == ['[', 'I', ']']

/-- The variants of LD, by the destination and then the source token (R126, R127). -/
def parseLd (c : AsmContext) (ts : List Token) : Except AsmError (Instr × List Token) :=
  match ts with
  | [] => .error ⟨c.line, .missingDestination⟩
  | d :: rest =>
    match d.kind with
    | .keyword .index => do
      let (a, rest) ← parseAddress c .missingSource rest
      return (.ldI a, rest)
    | .keyword .dt => parsePseudo c .ldDtVx rest
    | .keyword .st => parsePseudo c .ldStVx rest
    | .keyword .font => parsePseudo c .ldFVx rest
    | .keyword .bcd => parsePseudo c .ldBVx rest
    | .keyword (.reg x) =>
      match rest with
      | s :: rest' =>
        match s.kind with
        | .keyword .dt => .ok (.ldVxDt x, rest')
        | .keyword .key => .ok (.ldVxK x, rest')
        | _ => if s.isIndexMemory then .ok (.ldBlock x, rest') else parseDstByte c .ldImm (some .ldReg) ts
      | [] => .error ⟨c.line, .missingSource⟩
    | _ => if d.isIndexMemory then parsePseudo c .stBlock rest else .error ⟨c.line, .invalidRegisterName⟩

/-- `ADD I, Vx`, `ADD Vx, #kk`, `ADD Vx, Vy` (R126). -/
def parseAdd (c : AsmContext) (ts : List Token) : Except AsmError (Instr × List Token) :=
  match ts with
  | d :: rest =>
    if d.kind = .keyword .index then parsePseudo c .addIVx rest else parseDstByte c .addImm (some .addReg) ts
  | [] => .error ⟨c.line, .missingDestination⟩

/-- The instruction of a mnemonic and the operand tokens after it; the tokens it does not use are left (R126 to R128). -/
def parseInstr (c : AsmContext) (m : Mnemonic) (ts : List Token) : Except AsmError (Instr × List Token) :=
  match m with
  | .cls => .ok (.cls, ts)
  | .ret => .ok (.ret, ts)
  | .jp => parseJp c ts
  | .call => parseAddr c .call ts
  | .se => parseDstByte c .seImm (some .seReg) ts
  | .sne => parseDstByte c .sneImm (some .sneReg) ts
  | .ld => parseLd c ts
  | .add => parseAdd c ts
  | .or => parseDstSrc c .or ts
  | .and => parseDstSrc c .and ts
  | .xor => parseDstSrc c .xor ts
  | .sub => parseDstSrc c .sub ts
  | .subn => parseDstSrc c .subn ts
  | .shr => parseDstSrc c .shr ts
  | .shl => parseDstSrc c .shl ts
  | .rnd => parseDstByte c .rnd none ts
  | .drw => do
    let (x, ts) ← parseReg c .missingDestination ts
    let (y, ts) ← parseReg c .missingSource ts
    let (n, rest) ← parseCount c ts
    return (.drw x y n, rest)
  | .skp => parseDst c .skp ts
  | .sknp => parseDst c .sknp ts

/-! ## The single pass (R124, R125, R131) -/

/-- Where the pass stands: the current address, the symbols, the bytes so far (R124, R125). -/
structure AsmState where
  address : Nat
  symbols : Symbols
  output : List Byte
  deriving DecidableEq, Repr

/-- The tokens of one line, left to right (R125); a label does not advance the address and keeps its first binding (R124);
an instruction packs into two bytes, high byte first, and advances it by 2 (R125, R131). `done` says that the line has its
instruction: a mnemonic line is exactly one (R129), so a second mnemonic is an error (which one: log 30). A label whose name is
a reserved keyword or `$` (`V0:`, `$:`) is bound without an error, though no operand can reach it: R122 and R124 reserve the
names and name no error, so this is the model's choice (log 30, DESIGN CHOICE). `fuel` bounds the tokens. -/
def assembleTokens (line : Nat) (here : Address) :
    (fuel : Nat) → (done : Bool) → AsmState → List Token → Except AsmError AsmState
  | 0, _, s, _ => .ok s
  | _, _, s, [] => .ok s
  | fuel + 1, done, s, t :: rest =>
    match t.kind with
    | .label =>
      let symbols := match s.symbols.lookup t.text with
        | some _ => s.symbols
        | none => (t.text, BitVec.ofNat 12 s.address) :: s.symbols
      assembleTokens line here fuel done { s with symbols := symbols } rest
    | .keyword (.mnemonic m) =>
      if done then .error ⟨line, .unexpectedToken⟩
      else do
        let (i, rest) ← parseInstr ⟨s.symbols, here, line⟩ m rest
        assembleTokens line here fuel true
          { s with address := s.address + 2, output := s.output ++ (encodeBytes i).getD [] } rest
    | .directive => .error ⟨line, .directive⟩
    | .immediate _ | .expression => .error ⟨line, .strayToken⟩
    | .keyword _ | .identifier => .error ⟨line, .unexpectedToken⟩

/-- Line after line; the first error ends it (R125). -/
def assembleLines : (line : Nat) → AsmState → List (List Char) → Except AsmError AsmState
  | _, s, [] => .ok s
  | line, s, l :: ls => do
    let ts ← tokenizeLine line l
    let s ← assembleTokens line (BitVec.ofNat 12 s.address) (ts.length + 1) false s ts
    assembleLines (line + 1) s ls

/-- The assembler: source text and origin to bytes, or the first error; no partial output (R125, R131). -/
def assemble (source : List Char) (origin : Nat) : Except AsmError (List Byte) :=
  (assembleLines 0 ⟨origin, [], []⟩ (splitOn (· == '\n') [] source)).map (·.output)

end Sys2Proof.Machine
end

