-- ==== Sys2Proof/Machine/Control.lean ====
section
/-! DEFINITION. The decoder's control signals (`30_encoding.md` R107): the table of that rule, one row per kind. It adds
nothing to the instruction rules; that the meanings agree with it is a statement (log 23). -/

namespace Sys2Proof.Machine

/-- Column `pc`: how IP is updated. -/
inductive PcUpdate where
  /-- `+2` -/
  | plus2
  /-- `skip`: +4 if the condition holds, else +2 -/
  | skip
  /-- `load STACK` -/
  | loadStack
  /-- `load nnn` -/
  | loadAddress
  /-- `load nnn + V0` -/
  | loadAddressPlusV0
  deriving DecidableEq, Repr

/-- Column `Vwr`: the general register written (besides VF). -/
inductive RegWrite where
  | no
  /-- `V[x]` -/
  | dst
  /-- `V[0..x]` -/
  | upToDst
  deriving DecidableEq, Repr

/-- Column `alu`: the operation. -/
inductive AluSelect where
  | noOp
  | compareImmediate
  | compareRegister
  /-- an operation of the ALU of R170 on `V[x]` and an operand; ADD_IMM discards its flag -/
  | op (o : AluOp)
  | passDelay
  | passRegister
  | randomAnd
  | add16
  | keyBitTest
  | timesFive
  deriving DecidableEq, Repr

/-- Column `mem`: the memory access besides the fetch. -/
inductive MemUse where
  | noAccess
  /-- n byte reads at I -/
  | readSprite
  /-- x + 1 byte writes at I -/
  | writeBlock
  /-- x + 1 byte reads at I -/
  | readBlock
  deriving DecidableEq, Repr

/-- Column `other`: the other elements of state written. -/
inductive Element where
  | disp | dirty | sp | stack | index | dt | st | wait | waitReg
  deriving DecidableEq, Repr

/-- A row of the table. -/
structure ControlSignals where
  pc : PcUpdate
  vwr : RegWrite
  vfwr : Bool
  alu : AluSelect
  mem : MemUse
  other : List Element
  deriving DecidableEq, Repr

/-- The table of R107. -/
def controlSignals : Kind → ControlSignals
  | .cls => ⟨.plus2, .no, false, .noOp, .noAccess, [.disp, .dirty]⟩
  | .ret => ⟨.loadStack, .no, false, .noOp, .noAccess, [.sp]⟩
  | .jp => ⟨.loadAddress, .no, false, .noOp, .noAccess, []⟩
  | .call => ⟨.loadAddress, .no, false, .noOp, .noAccess, [.stack, .sp]⟩
  | .seImm | .sneImm => ⟨.skip, .no, false, .compareImmediate, .noAccess, []⟩
  | .seReg | .sneReg => ⟨.skip, .no, false, .compareRegister, .noAccess, []⟩
  | .ldImm | .ldReg => ⟨.plus2, .dst, false, .op .passB, .noAccess, []⟩
  | .addImm => ⟨.plus2, .dst, false, .op .add, .noAccess, []⟩
  | .or => ⟨.plus2, .dst, false, .op .or, .noAccess, []⟩
  | .and => ⟨.plus2, .dst, false, .op .and, .noAccess, []⟩
  | .xor => ⟨.plus2, .dst, false, .op .xor, .noAccess, []⟩
  | .addReg => ⟨.plus2, .dst, true, .op .add, .noAccess, []⟩
  | .sub => ⟨.plus2, .dst, true, .op .sub, .noAccess, []⟩
  | .subn => ⟨.plus2, .dst, true, .op .subn, .noAccess, []⟩
  | .shr => ⟨.plus2, .dst, true, .op .shr, .noAccess, []⟩
  | .shl => ⟨.plus2, .dst, true, .op .shl, .noAccess, []⟩
  | .ldI => ⟨.plus2, .no, false, .noOp, .noAccess, [.index]⟩
  | .jpV0 => ⟨.loadAddressPlusV0, .no, false, .add16, .noAccess, []⟩
  | .rnd => ⟨.plus2, .dst, false, .randomAnd, .noAccess, []⟩
  | .drw => ⟨.plus2, .no, true, .noOp, .readSprite, [.disp, .dirty]⟩
  | .skp | .sknp => ⟨.skip, .no, false, .keyBitTest, .noAccess, []⟩
  | .ldVxDt => ⟨.plus2, .dst, false, .passDelay, .noAccess, []⟩
  | .ldVxK => ⟨.plus2, .no, false, .noOp, .noAccess, [.wait, .waitReg]⟩
  | .ldDtVx => ⟨.plus2, .no, false, .passRegister, .noAccess, [.dt]⟩
  | .ldStVx => ⟨.plus2, .no, false, .passRegister, .noAccess, [.st]⟩
  | .addIVx => ⟨.plus2, .no, false, .add16, .noAccess, [.index]⟩
  | .ldFVx => ⟨.plus2, .no, false, .timesFive, .noAccess, [.index]⟩
  | .ldBVx => ⟨.plus2, .no, false, .noOp, .noAccess, []⟩
  | .stBlock => ⟨.plus2, .no, false, .noOp, .writeBlock, [.index]⟩
  | .ldBlock => ⟨.plus2, .upToDst, false, .noOp, .readBlock, [.index]⟩
  | .unknown => ⟨.plus2, .no, false, .noOp, .noAccess, []⟩

end Sys2Proof.Machine
end

