-- ==== Sys2Proof/Machine/Disassembler.lean ====
section
/-! DEFINITION. The disassembler, the inverse opcode mapper (`47_disassembler.md` R260 to R269): a pure function of a byte
buffer and a load origin; it reads and writes no machine state. The text formats that the source's one example line does
not show are the spec's D23 and D24 (log 26). -/

namespace Sys2Proof.Machine

/-! ## Operand text (R263) -/

/-- A hexadecimal digit, upper case. -/
def hexDigit (n : Nat) : Char := if n < 10 then Char.ofNat (48 + n) else Char.ofNat (55 + n)

/-- The hexadecimal digits of `n`, most significant first, at least `width` of them. -/
def hexDigits : (fuel : Nat) → (width : Nat) → (n : Nat) → List Char
  | 0, _, _ => []
  | fuel + 1, width, n =>
    if n = 0 ∧ width = 0 then [] else hexDigits fuel (width - 1) (n / 16) ++ [hexDigit (n % 16)]

/-- `n` as `0x` and at least `width` upper-case hexadecimal digits. -/
def hexText (width n : Nat) : String := "0x" ++ String.ofList (hexDigits (width + n.log2 + 1) width n)

/-- `V` and the index as one hexadecimal digit (R20, R263). -/
def regText (x : RegIndex) : String := "V" ++ String.ofList [hexDigit x.toNat]

/-- A byte immediate: `#0x` and exactly two digits. -/
def byteText (b : Byte) : String := "#" ++ hexText 2 b.toNat

/-- An address immediate: `#0x` and exactly three digits. -/
def addressText (a : Address) : String := "#" ++ hexText 3 a.toNat

/-- A 4-bit count: `#0x` and one digit. -/
def countText (n : BitVec 4) : String := "#" ++ hexText 1 n.toNat

/-- A mnemonic with one operand. -/
def text1 (m a : String) : String := m ++ " " ++ a

/-- A mnemonic with two operands, separated by a comma and one space. -/
def text2 (m a b : String) : String := m ++ " " ++ a ++ ", " ++ b

/-! ## The mapper (R261, R262, R269) -/

/-- The text of an instruction, R262; none for UNKNOWN, which is never printed as an instruction (R256, R266). -/
def instrText : Instr → Option String
  | .cls => some "CLS"
  | .ret => some "RET"
  | .jp nnn => some (text1 "JP" (addressText nnn))
  | .call nnn => some (text1 "CALL" (addressText nnn))
  | .seImm x kk => some (text2 "SE" (regText x) (byteText kk))
  | .sneImm x kk => some (text2 "SNE" (regText x) (byteText kk))
  | .seReg x y => some (text2 "SE" (regText x) (regText y))
  | .ldImm x kk => some (text2 "LD" (regText x) (byteText kk))
  | .addImm x kk => some (text2 "ADD" (regText x) (byteText kk))
  | .ldReg x y => some (text2 "LD" (regText x) (regText y))
  | .or x y => some (text2 "OR" (regText x) (regText y))
  | .and x y => some (text2 "AND" (regText x) (regText y))
  | .xor x y => some (text2 "XOR" (regText x) (regText y))
  | .addReg x y => some (text2 "ADD" (regText x) (regText y))
  | .sub x y => some (text2 "SUB" (regText x) (regText y))
  | .shr x y => some (text2 "SHR" (regText x) (regText y))
  | .subn x y => some (text2 "SUBN" (regText x) (regText y))
  | .shl x y => some (text2 "SHL" (regText x) (regText y))
  | .sneReg x y => some (text2 "SNE" (regText x) (regText y))
  | .ldI nnn => some (text2 "LD" "I" (addressText nnn))
  | .jpV0 nnn => some (text2 "JP" "V0" (addressText nnn))
  | .rnd x kk => some (text2 "RND" (regText x) (byteText kk))
  | .drw x y n => some (text2 "DRW" (regText x) (regText y) ++ ", " ++ countText n)
  | .skp x => some (text1 "SKP" (regText x))
  | .sknp x => some (text1 "SKNP" (regText x))
  | .ldVxDt x => some (text2 "LD" (regText x) "DT")
  | .ldVxK x => some (text2 "LD" (regText x) "K")
  | .ldDtVx x => some (text2 "LD" "DT" (regText x))
  | .ldStVx x => some (text2 "LD" "ST" (regText x))
  | .addIVx x => some (text2 "ADD" "I" (regText x))
  | .ldFVx x => some (text2 "LD" "F" (regText x))
  | .ldBVx x => some (text2 "LD" "B" (regText x))
  | .stBlock x => some (text2 "LD" "[I]" (regText x))
  | .ldBlock x => some (text2 "LD" (regText x) "[I]")
  | .unknown => none

/-- `Mnemonic(w)`: defined when `Decode(w)` is not UNKNOWN (R261). -/
def mnemonicOf (w : Word) : Option String := instrText (decode w)

/-- An operand of the inverse mapper (R269): a field of the shape. -/
inductive OperandField where
  | reg (x : RegIndex)
  | byte (b : Byte)
  | address (a : Address)
  | count (n : BitVec 4)
  deriving DecidableEq, Repr

/-- The shape's fields in the order of R262. -/
def operandFields : Instr → List OperandField
  | .cls | .ret | .unknown => []
  | .jp nnn | .call nnn | .ldI nnn | .jpV0 nnn => [.address nnn]
  | .seImm x kk | .sneImm x kk | .ldImm x kk | .addImm x kk | .rnd x kk => [.reg x, .byte kk]
  | .seReg x y | .sneReg x y | .ldReg x y | .or x y | .and x y | .xor x y | .addReg x y | .sub x y | .shr x y
  | .subn x y | .shl x y => [.reg x, .reg y]
  | .drw x y n => [.reg x, .reg y, .count n]
  | .skp x | .sknp x | .ldVxDt x | .ldVxK x | .ldDtVx x | .ldStVx x | .addIVx x | .ldFVx x | .ldBVx x | .stBlock x
  | .ldBlock x => [.reg x]

/-- The combinational inverse mapper `w -> (valid, mnemonic id, operand list)` (R269): none is `valid = 0`. -/
def inverseMap (w : Word) : Option (Kind × List OperandField) :=
  if (decode w).kind = .unknown then none else some ((decode w).kind, operandFields (decode w))

/-! ## The stream walker (R265 to R267) -/

/-- An emitted item: an instruction of two bytes, or a raw one-byte escape (R265, R266). -/
inductive Item where
  | insn (i : Instr)
  | raw (b : Byte)
  deriving DecidableEq, Repr

/-- A line of the listing: the address of its first byte, and the item (R264). -/
structure Line where
  address : Nat
  item : Item
  deriving DecidableEq, Repr

/-- How far the walker advances past an item (R265, R266). -/
def Item.size : Item → Nat
  | .insn _ => 2
  | .raw _ => 1

/-- `Disassemble(buf, len, origin)` from the address `pos`: a word that decodes to a valid kind gives a line and an advance
of 2; otherwise the byte is a raw escape and the advance is 1, so the second byte of an Unknown word is looked at again
(R265, R266); a last byte with no partner is a raw escape (R267). -/
def walk : (pos : Nat) → List Byte → List Line
  | _, [] => []
  | pos, [b] => [⟨pos, .raw b⟩]
  | pos, b0 :: b1 :: rest =>
    if (decode (wordOfBytes b0 b1)).kind = .unknown then ⟨pos, .raw b0⟩ :: walk (pos + 1) (b1 :: rest)
    else ⟨pos, .insn (decode (wordOfBytes b0 b1))⟩ :: walk (pos + 2) rest
termination_by structural _ buf => buf

/-- The text of an item: R262 for an instruction, `DB #0xHH` for a raw byte (R266). -/
def Item.text : Item → String
  | .insn i => (instrText i).getD ""
  | .raw b => text1 "DB" (byteText b)

/-- The text of a line: the address as `0x` and at least three digits, a colon, one space, the item (R264). -/
def Line.text (l : Line) : String := hexText 3 l.address ++ ": " ++ l.item.text

/-- The disassembler (R260): buffer and origin to lines of text. -/
def disassemble (buf : List Byte) (origin : Nat) : List String := (walk origin buf).map Line.text

end Sys2Proof.Machine
end

