-- ==== Sys2Proof/Machine/Run.lean ====
section
/-! DEFINITION. The end of a run (`00_scope.md` R16). The instruction set has no halt and the spec leaves the end of a run to
the model: this one takes the example R16 gives, IP at a stated address that holds a jump to itself (log 31, DESIGN CHOICE).
The step itself knows no end. -/

namespace Sys2Proof.Machine

/-- The core's run has ended at `stop`: IP is `stop`, the word there is a JP to `stop`, and no key-wait is pending (R16;
log 31). -/
def State.endedAt (stop : Word) (s : State) : Bool :=
  s.ip == stop && !s.wait &&
    match decode (s.fetchWord stop) with
    | .jp nnn => addressOperand nnn == stop
    | _ => false

/-- Steps until the run has ended at `stop`, at most `fuel` of them (R16; log 31). -/
def runUntil (stop : Word) : (fuel : Nat) → State → Host.Outcome State Fault Refusal
  | 0, s => .next s
  | fuel + 1, s =>
    if s.endedAt stop then .next s
    else match step s with
      | .next t => runUntil stop fuel t
      | .fault f => .fault f
      | .refused r => .refused r

end Sys2Proof.Machine
end

