-- ==== Sys2Proof/Safety.lean ====
section
/-! DEFINITION. The terms the statements use: the invariant, runs, frames, and the spec's closed descriptions of what a
draw covers and what the control signals promise. Nothing here is used by the machine. -/

namespace Sys2Proof.Machine

/-- The invariant of the machine: memory is in its canonical form, and SP counts at most the 16 entries of the stack
(R26, R38: "0 to 16 in any defined run"). -/
structure State.Inv (s : State) : Prop where
  mem_wf : Memory.wf s.mem = true
  sp_le : s.sp.toNat ≤ 16

/-- An outcome that is a next state. -/
def Completes (o : Host.Outcome State Fault Refusal) : Prop := ∃ t, o = .next t

/-- It is the core's turn: the schedule is empty or names the core next (R13; log 6). -/
def State.coreTurn (s : State) : Prop := s.schedule = [] ∨ ∃ rest, s.schedule = .core :: rest

/-- The state the acting agent sees: the turn just taken is gone from the schedule (log 6). -/
def State.turnTaken (s : State) : State := { s with schedule := s.schedule.tail }

/-- The instruction at IP: what the core would execute next (R140). -/
def State.nextInstr (s : State) : Instr := decode (s.fetchWord s.ip)

/-! ## Frames -/

/-- IP moves forward by `n`, where that does not pass 0xFFFF (R141). What happens past 0xFFFF is D16 and is said apart. -/
def IpAdvances (n : Nat) (s t : State) : Prop := s.ip.toNat + n < 65536 → t.ip.toNat = s.ip.toNat + n

/-- Every general register but `x` reads as before. -/
def RegsKeptBut (x : RegIndex) (s t : State) : Prop := ∀ r, r ≠ x → t.reg r = s.reg r

/-- Every general register but `x` and VF reads as before. -/
def RegsKeptButFlag (x : RegIndex) (s t : State) : Prop := ∀ r, r ≠ x → r ≠ vf → t.reg r = s.reg r

/-- Every byte of memory reads as before. -/
def MemoryKept (s t : State) : Prop := ∀ a, t.memRead a = s.memRead a

/-- Nothing but IP differs: every register, timer, latch, memory byte, stack entry and pixel is as before. -/
def OnlyIp (s t : State) : Prop := t = { s with ip := t.ip } ∧ MemoryKept s t

/-- Nothing but the general registers and IP differs. -/
def OnlyRegsIp (s t : State) : Prop := t = { s with v := t.v, ip := t.ip } ∧ MemoryKept s t

/-- Nothing but I and IP differs. -/
def OnlyIndexIp (s t : State) : Prop := t = { s with i := t.i, ip := t.ip } ∧ MemoryKept s t

/-! ## What a draw covers (R201) -/

/-- Some set bit of the sprite of `n` rows at I, drawn at (`vx`, `vy`), falls on the pixel (`px`, `py`): row `row`, column
`col`, bit `7 - col` of the byte at `I + row`, wrapped modulo 64 and modulo 32. -/
def State.SpriteCovers (s : State) (vx vy n : Nat) (px : Fin 64) (py : Fin 32) : Prop :=
  ∃ row < n, ∃ col < 8,
    (s.memRead (s.i + BitVec.ofNat 16 row)).getLsbD (7 - col) = true ∧
      px.val = (vx + col) % 64 ∧ py.val = (vy + row) % 32

/-! ## What the control signals promise (R107) -/

/-- Column `pc`: what IP becomes (all sums modulo 65536, D16). -/
def PcUpdate.Describes (p : PcUpdate) (i : Instr) (s t : State) : Prop :=
  match p with
  | .plus2 => t.ip = s.ip + 2
  | .skip => t.ip = s.ip + 2 ∨ t.ip = s.ip + 4
  | .loadStack => s.stack[t.sp.toNat]? = some t.ip
  | .loadAddress => i.descriptor.address = some t.ip.toNat
  | .loadAddressPlusV0 => ∃ a, i.descriptor.address = some a ∧ t.ip.toNat = a + (s.reg 0).toNat

/-- Columns `Vwr` and `VFwr`: the general registers the kind may write. -/
def ControlSignals.MayWrite (c : ControlSignals) (i : Instr) (r : RegIndex) : Prop :=
  (c.vfwr = true ∧ r = vf) ∨
    match c.vwr with
    | .no => False
    | .dst => i.descriptor.dst = some r.toNat
    | .upToDst => ∃ x, i.descriptor.dst = some x ∧ r.toNat ≤ x

/-- Column `other`: an element of state is as before. -/
def Element.Kept (e : Element) (s t : State) : Prop :=
  match e with
  | .disp => t.disp = s.disp
  | .dirty => t.dirty = s.dirty
  | .sp => t.sp = s.sp
  | .stack => t.stack = s.stack
  | .index => t.i = s.i
  | .dt => t.dt = s.dt
  | .st => t.st = s.st
  | .wait => t.wait = s.wait
  | .waitReg => t.waitReg = s.waitReg

/-- The row of the control table describes the step from `s` to `t` by `i`: IP as column `pc` says; no register outside
columns `Vwr` and `VFwr`, no memory outside a block write, no element outside column `other`, and neither the key latch nor
the schedule changes; a draw is consumed only by RND. -/
structure ControlSignals.Describes (c : ControlSignals) (i : Instr) (s t : State) : Prop where
  pc : c.pc.Describes i s t
  regs : ∀ r, ¬ c.MayWrite i r → t.reg r = s.reg r
  mem : c.mem ≠ .writeBlock → t.mem = s.mem
  other : ∀ e, e ∉ c.other → e.Kept s t
  keys : t.keys = s.keys
  schedule : t.schedule = s.schedule
  draws : c.alu ≠ .randomAnd → t.draws = s.draws

end Sys2Proof.Machine
end

