-- ==== Sys2Proof/Certificates/Slice0/Obligations.lean ====
section
/-! DEFINITION. The statements for the provers. "log n" is `notes/assumptions/n.md`. Where a statement rests on a decision
or an inference that the spec marks as its own (D<n>, [derived], [from general knowledge]) its docstring names it. -/

open Sys2Proof Sys2Proof.Machine

/-! ## Encoding (`30_encoding.md`) -/

/-- R105: decoding the bytes of an encoded instruction gives it back, every operand at every value; UNKNOWN has no encoding.
The encoding numbers themselves are log 14. -/
def Obligations.DecodeEncodeRoundTrip : Prop :=
  (∀ i : Instr, i.assemblable = true →
    ∃ w, encode i = some w ∧ decode w = i ∧ encodeBytes i = some (bytesOfWord w) ∧
      ∀ rest, decodeBytes (bytesOfWord w ++ rest) = .ok (i, rest)) ∧
  encode .unknown = none

/-- R105, the converse [derived]: encoding a decoded valid word gives the word back, but for the ignored low nibble of
families 5 and 9 (R98). -/
def Obligations.EncodeOfDecodedWord : Prop :=
  ∀ w : Word, decode w ≠ .unknown →
    encode (decode w) = some (if familyOf w = 5 ∨ familyOf w = 9 then w &&& 0xFFF0 else w)

/-- R106 [derived]: the decoder gives the kind of the table's row that the word selects, no two rows of different kinds
select one word, and UNKNOWN is the default. -/
def Obligations.DecoderAgreesWithOpcodeTable : Prop :=
  ∀ w : Word, (decode w).kind = tableKind w ∧ ∀ r ∈ opcodeTable, r.selects w = true → r.kind = tableKind w

/-- R99: the fixed 16-entry table of family 8, for all register fields. -/
def Obligations.FamilyEightTable : Prop :=
  ∀ x y : RegIndex,
    decode (wordOfNibbles 8 x y 0x0) = .ldReg x y ∧ decode (wordOfNibbles 8 x y 0x1) = .or x y ∧
    decode (wordOfNibbles 8 x y 0x2) = .and x y ∧ decode (wordOfNibbles 8 x y 0x3) = .xor x y ∧
    decode (wordOfNibbles 8 x y 0x4) = .addReg x y ∧ decode (wordOfNibbles 8 x y 0x5) = .sub x y ∧
    decode (wordOfNibbles 8 x y 0x6) = .shr x y ∧ decode (wordOfNibbles 8 x y 0x7) = .subn x y ∧
    decode (wordOfNibbles 8 x y 0xE) = .shl x y ∧
    (∀ n : BitVec 4, n ∈ [0x8#4, 0x9#4, 0xA#4, 0xB#4, 0xC#4, 0xD#4, 0xF#4] →
      decode (wordOfNibbles 8 x y n) = .unknown) ∧
    (∀ k : Kind, k ∈ [.ldReg, .or, .and, .xor, .addReg, .sub, .shr, .subn, .shl] → k.shape = .destinationSource) ∧
    Kind.shape .unknown = .noOperand

/-- R102 [derived] (D5, D6, D7, D8; log 14): exactly which words decode to UNKNOWN. -/
def Obligations.UnknownWordsExactly : Prop :=
  ∀ w : Word, decode w = .unknown ↔
    (familyOf w = 0x0 ∧ w ≠ 0x00E0 ∧ w ≠ 0x00EE) ∨
    (familyOf w = 0x8 ∧ nibbleOf w ∈ [0x8#4, 0x9#4, 0xA#4, 0xB#4, 0xC#4, 0xD#4, 0xF#4]) ∨
    (familyOf w = 0xE ∧ immediateByteOf w ∉ [0x9E#8, 0xA1#8]) ∨
    (familyOf w = 0xF ∧
      immediateByteOf w ∉ [0x07#8, 0x0A#8, 0x15#8, 0x18#8, 0x1E#8, 0x29#8, 0x33#8, 0x55#8, 0x65#8])

/-- R257: decoding any two bytes succeeds and yields a shape-consistent descriptor; UNKNOWN has shape None. -/
def Obligations.DecodingIsTotalAndShapeConsistent : Prop :=
  ∀ hi lo : Byte, ∃ i, decodeBytes [hi, lo] = .ok (i, []) ∧ i.descriptor.wellFormed = true ∧
    i.descriptor.shape = i.kind.shape ∧ (i.kind = .unknown → i.descriptor.shape = .noOperand)

/-- R104, R94 (D32; log 27): `Encode` on the descriptor record agrees with the encoder, accepts only descriptors that meet
its preconditions, and for every kind of shape Address masks the address, whatever its size, with 0xFFF. -/
def Obligations.DescriptorEncoderAgrees : Prop :=
  (∀ i : Instr, i.assemblable = true → ∃ w, encode i = some w ∧ encodeDescriptor i.descriptor = .ok w) ∧
  (∀ d w, encodeDescriptor d = .ok w →
    d.kind ≠ .unknown ∧ d.shapeOk = true ∧ d.fieldsOk = true ∧ d.operandsInRange = true) ∧
  (∀ (k : Kind) (a : Nat), k.shape = .address → ∃ base, baseWord k = some base ∧
    encodeDescriptor { kind := k, shape := .address, address := some a } =
      .ok (base ||| (BitVec.ofNat 16 a &&& 0x0FFF#16)))

/-- Words written out from the spec's encodings decode to what they stand for (a sanity statement; log 14). -/
def Obligations.SpecWordsDecode : Prop :=
  decode 0b0000000011100000 = .cls ∧ decode 0b0110000100000100 = .ldImm 1 4 ∧
  decode 0b1000000100000100 = .addReg 1 0 ∧ decode 0b0001101010111100 = .jp 0xABC ∧
  decode 0b1101000100101111 = .drw 1 2 15 ∧ decode 0b1110010110011110 = .skp 5 ∧
  decode 0b1111011001010101 = .stBlock 6 ∧ decode 0b1000101010111000 = .unknown

/-! ## The step (`40_control_flow.md` R140, `20_memory.md` R64, `44_keys_timers.md` R222) -/

/-- R140: on the core's turn and with no key-wait pending, a step executes the instruction that the two bytes at IP decode
to; the turn taken leaves the schedule, and an empty schedule leaves the state as it is (log 6). -/
def Obligations.StepRunsDecodedInstruction : Prop :=
  ∀ (s : State) (i : Instr), s.coreTurn → s.wait = false →
    decodeBytes [s.memRead s.ip, s.memRead (s.ip + 1)] = .ok (i, []) → i.wellFormed = true →
    step s = exec i s.turnTaken ∧ (s.schedule = [] → step s = exec i s)

/-- R64 (its consequences are [derived]; D16, D27; log 11, log 22): the fetched word is big-endian, each byte clamped, the
second address modulo 65536. -/
def Obligations.FetchIsBigEndianAndBounded : Prop :=
  ∀ (s : State) (a : Word),
    (s.fetchWord a).toNat = 256 * (s.memRead a).toNat + (s.memRead (a + 1)).toNat ∧
    (a = 0x0FFF → (s.fetchWord a).toNat = 256 * (s.memRead 0x0FFF).toNat) ∧
    (4096 ≤ a.toNat → a ≠ 0xFFFF → s.fetchWord a = 0 ∧ decode (s.fetchWord a) = .unknown) ∧
    (a = 0xFFFF → (s.fetchWord a).toNat = (s.memRead 0).toNat)

/-- R222 (D13; log 7): on the core's turn in a key-wait the core is stuck; and a host's turn performs the host's action
(R13; log 6). -/
def Obligations.WaitingCoreIsStuckAndHostActs : Prop :=
  (∀ s : State, s.coreTurn → s.wait = true → step s = .fault .keyWaitPending) ∧
  (∀ (s : State) (a : HostAction) (rest : List Turn), s.schedule = .host a :: rest →
    step s = hostStep a { s with schedule := rest })

/-! ## Load, arithmetic, logic, shift, random (`42_load_alu.md`) -/

/-- R173: 6xkk is LD Vx, #kk; V[x] becomes kk, IP advances by 2, nothing else changes. -/
def Obligations.LoadImmediateResult : Prop :=
  ∀ (x : RegIndex) (kk : Byte) (s : State), decode (0x6#4 ++ x ++ kk) = .ldImm x kk ∧
    ∃ t, exec (.ldImm x kk) s = .next t ∧ t.reg x = kk ∧ RegsKeptBut x s t ∧ IpAdvances 2 s t ∧ OnlyRegsIp s t

/-- R174: 8xy0 is LD Vx, Vy; V[x] becomes V[y]. -/
def Obligations.LoadRegisterResult : Prop :=
  ∀ (x y : RegIndex) (s : State), decode (wordOfNibbles 8 x y 0) = .ldReg x y ∧
    ∃ t, exec (.ldReg x y) s = .next t ∧ t.reg x = s.reg y ∧ RegsKeptBut x s t ∧ IpAdvances 2 s t ∧ OnlyRegsIp s t

/-- R178, R179, R180: 8xy1, 8xy2, 8xy3 are the bitwise operations; no flag effect. -/
def Obligations.LogicResults : Prop :=
  ∀ (x y : RegIndex) (s : State),
    decode (wordOfNibbles 8 x y 1) = .or x y ∧ decode (wordOfNibbles 8 x y 2) = .and x y ∧
    decode (wordOfNibbles 8 x y 3) = .xor x y ∧
    (∃ t, exec (.or x y) s = .next t ∧ t.reg x = s.reg x ||| s.reg y ∧ RegsKeptBut x s t ∧ IpAdvances 2 s t ∧
      OnlyRegsIp s t) ∧
    (∃ t, exec (.and x y) s = .next t ∧ t.reg x = s.reg x &&& s.reg y ∧ RegsKeptBut x s t ∧ IpAdvances 2 s t ∧
      OnlyRegsIp s t) ∧
    (∃ t, exec (.xor x y) s = .next t ∧ t.reg x = s.reg x ^^^ s.reg y ∧ RegsKeptBut x s t ∧ IpAdvances 2 s t ∧
      OnlyRegsIp s t)

/-- R175: ADD Vx, #kk adds modulo 256 without flag effect (the word 7xkk: log 14). -/
def Obligations.AddImmediateResult : Prop :=
  ∀ (x : RegIndex) (kk : Byte) (s : State), decode (0x7#4 ++ x ++ kk) = .addImm x kk ∧
    ∃ t, exec (.addImm x kk) s = .next t ∧ (t.reg x).toNat = ((s.reg x).toNat + kk.toNat) % 256 ∧
      RegsKeptBut x s t ∧ IpAdvances 2 s t ∧ OnlyRegsIp s t

/-- R177, R172 (the case x = 15 is D9; log 12): ADD Vx, Vy writes the sum modulo 256 and then the carry to VF. -/
def Obligations.AddRegisterResult : Prop :=
  ∀ (x y : RegIndex) (s : State), ∃ t, exec (.addReg x y) s = .next t ∧
    (x ≠ vf → (t.reg x).toNat = ((s.reg x).toNat + (s.reg y).toNat) % 256) ∧
    t.reg vf = (if (s.reg x).toNat + (s.reg y).toNat > 255 then 1 else 0) ∧
    RegsKeptButFlag x s t ∧ IpAdvances 2 s t ∧ OnlyRegsIp s t

/-- R181, R183, R172 (x = 15 is D9; log 12): the difference modulo 256, and VF = 1 exactly when strictly greater. -/
def Obligations.SubtractResults : Prop :=
  ∀ (x y : RegIndex) (s : State),
    (∃ t, exec (.sub x y) s = .next t ∧
      (x ≠ vf → ((t.reg x).toNat : Int) = ((s.reg x).toNat - (s.reg y).toNat : Int) % 256) ∧
      t.reg vf = (if (s.reg x).toNat > (s.reg y).toNat then 1 else 0) ∧
      RegsKeptButFlag x s t ∧ IpAdvances 2 s t ∧ OnlyRegsIp s t) ∧
    (∃ t, exec (.subn x y) s = .next t ∧
      (x ≠ vf → ((t.reg x).toNat : Int) = ((s.reg y).toNat - (s.reg x).toNat : Int) % 256) ∧
      t.reg vf = (if (s.reg y).toNat > (s.reg x).toNat then 1 else 0) ∧
      RegsKeptButFlag x s t ∧ IpAdvances 2 s t ∧ OnlyRegsIp s t)

/-- R182, R184, R172 (x = 15 is D9; log 12): for every SHIFT_AMOUNT (log 1), V[x] is shifted by it and VF is the old bit 0
(right) or bit 7 (left); V[y] is ignored. -/
def Obligations.ShiftResults : Prop :=
  ∀ (x y : RegIndex) (s : State) (k : Nat), Config.shiftAmount = k →
    (∃ t, exec (.shr x y) s = .next t ∧ (x ≠ vf → (t.reg x).toNat = (s.reg x).toNat / 2 ^ k) ∧
      (t.reg vf).toNat = (s.reg x).toNat % 2 ∧
      RegsKeptButFlag x s t ∧ IpAdvances 2 s t ∧ OnlyRegsIp s t) ∧
    (∃ t, exec (.shl x y) s = .next t ∧ (x ≠ vf → (t.reg x).toNat = (s.reg x).toNat * 2 ^ k % 256) ∧
      (t.reg vf).toNat = (s.reg x).toNat / 128 ∧
      RegsKeptButFlag x s t ∧ IpAdvances 2 s t ∧ OnlyRegsIp s t)

/-- R185 (D11; log 2): V[x] becomes a fresh draw masked by the immediate, so no bit outside the mask is set; the draw is
consumed; no flag. True whatever the draw is. -/
def Obligations.RandomResult : Prop :=
  ∀ (x : RegIndex) (kk : Byte) (s : State), ∃ t, exec (.rnd x kk) s = .next t ∧
    t.reg x = s.drawnByte &&& kk ∧ t.reg x &&& ~~~kk = 0 ∧ (kk = 0 → t.reg x = 0) ∧
    (kk = 0xFF → t.reg x = s.drawnByte) ∧ t.draws = s.draws + 1 ∧
    RegsKeptBut x s t ∧ IpAdvances 2 s t ∧ t = { s with v := t.v, ip := t.ip, draws := t.draws } ∧ MemoryKept s t

/-! ## Skips (`41_skip_compare.md`, `44_keys_timers.md`) -/

/-- R160 to R163: each compare skip advances IP by 4 when its condition holds, else by 2, and does nothing else (the
family numbers: log 14). -/
def Obligations.CompareSkipResults : Prop :=
  ∀ (x y : RegIndex) (kk : Byte) (s : State),
    (∃ t, exec (.seImm x kk) s = .next t ∧ OnlyIp s t ∧
      (s.reg x = kk → IpAdvances 4 s t) ∧ (s.reg x ≠ kk → IpAdvances 2 s t)) ∧
    (∃ t, exec (.sneImm x kk) s = .next t ∧ OnlyIp s t ∧
      (s.reg x ≠ kk → IpAdvances 4 s t) ∧ (s.reg x = kk → IpAdvances 2 s t)) ∧
    (∃ t, exec (.seReg x y) s = .next t ∧ OnlyIp s t ∧
      (s.reg x = s.reg y → IpAdvances 4 s t) ∧ (s.reg x ≠ s.reg y → IpAdvances 2 s t)) ∧
    (∃ t, exec (.sneReg x y) s = .next t ∧ OnlyIp s t ∧
      (s.reg x ≠ s.reg y → IpAdvances 4 s t) ∧ (s.reg x = s.reg y → IpAdvances 2 s t))

/-- R216, R217 (a value above 15 counts as not pressed: D12; log 17): SKP skips when the key is held, SKNP when it is not. -/
def Obligations.KeySkipResults : Prop :=
  ∀ (x : RegIndex) (s : State),
    (∃ t, exec (.skp x) s = .next t ∧ OnlyIp s t ∧
      ((s.reg x).toNat ≤ 15 ∧ s.keys.getLsbD (s.reg x).toNat = true → IpAdvances 4 s t) ∧
      (15 < (s.reg x).toNat ∨ s.keys.getLsbD (s.reg x).toNat = false → IpAdvances 2 s t)) ∧
    (∃ t, exec (.sknp x) s = .next t ∧ OnlyIp s t ∧
      ((s.reg x).toNat ≤ 15 ∧ s.keys.getLsbD (s.reg x).toNat = true → IpAdvances 2 s t) ∧
      (15 < (s.reg x).toNat ∨ s.keys.getLsbD (s.reg x).toNat = false → IpAdvances 4 s t))

/-! ## Control transfer (`40_control_flow.md`) -/

/-- R144, R145 (the family numbers: log 14; the sum is not reduced modulo 4096: [derived]): JP and JP V0 write their target
to IP and nothing else. So a run that has ended in the model's sense (R16; log 31), with no host turn pending, stays as it
is. -/
def Obligations.JumpResults : Prop :=
  ∀ (nnn : Address) (s : State),
    (∃ t, exec (.jp nnn) s = .next t ∧ OnlyIp s t ∧ t.ip.toNat = nnn.toNat) ∧
    (∃ t, exec (.jpV0 nnn) s = .next t ∧ OnlyIp s t ∧ t.ip.toNat = nnn.toNat + (s.reg 0).toNat) ∧
    (∀ stop, s.endedAt stop = true → s.schedule = [] → step s = .next s)

/-- R146 (stack discipline D3, log 21; the wrap of IP + 2 is D16, log 11; a full stack is U1, D4, log 8): CALL pushes the
address of the next instruction and jumps; on a full stack it is the fault U1. -/
def Obligations.CallResult : Prop :=
  ∀ (nnn : Address) (s : State),
    (s.sp.toNat < 16 → ∃ t, exec (.call nnn) s = .next t ∧
      t.ip.toNat = nnn.toNat ∧ t.sp.toNat = s.sp.toNat + 1 ∧ t.stack[s.sp.toNat]? = some (s.ip + 2) ∧
      (∀ j : Nat, j ≠ s.sp.toNat → t.stack[j]? = s.stack[j]?) ∧
      t = { s with ip := t.ip, sp := t.sp, stack := t.stack } ∧ MemoryKept s t) ∧
    (16 ≤ s.sp.toNat → exec (.call nnn) s = .fault .stackOverflow)

/-- R143 (stack discipline D3, log 21; an empty stack is U2, D4, log 8; SP above 16, which no defined run has, is log 9):
RET pops the stack into IP. -/
def Obligations.ReturnResult : Prop :=
  ∀ s : State,
    (0 < s.sp.toNat → s.sp.toNat ≤ 16 → ∃ t, exec .ret s = .next t ∧
      t.sp.toNat = s.sp.toNat - 1 ∧ s.stack[t.sp.toNat]? = some t.ip ∧
      t = { s with ip := t.ip, sp := t.sp } ∧ MemoryKept s t) ∧
    (s.sp.toNat = 0 → exec .ret s = .fault .stackUnderflow) ∧
    (16 < s.sp.toNat → exec .ret s = .fault .stackPointerOutOfRange)

/-- R143, R146: a RET executed with the stack as its CALL left it goes to the instruction after the CALL and restores SP,
whatever ran in between. -/
def Obligations.ReturnUndoesCall : Prop :=
  ∀ (nnn : Address) (s t u : State), exec (.call nnn) s = .next t → u.sp = t.sp → u.stack = t.stack →
    ∃ w, exec .ret u = .next w ∧ w.ip = s.ip + 2 ∧ w.sp = s.sp

/-! ## Display (`43_display.md`) -/

/-- R200: 00E0 is CLS; every pixel becomes 0 and the display is marked dirty; VF and everything else is unchanged. -/
def Obligations.ClearScreenResult : Prop :=
  decode 0x00E0 = .cls ∧ encode .cls = some 0x00E0 ∧
  ∀ s : State, ∃ t, exec .cls s = .next t ∧ (∀ px py, t.disp.pixel px py = false) ∧ t.dirty = true ∧
    IpAdvances 2 s t ∧ t = { s with disp := t.disp, dirty := t.dirty, ip := t.ip } ∧ MemoryKept s t

/-- R201 (bit order and the collision rule D17, n = 0 D18, address wrap D16; log 11, log 13): DRW exclusive-ors exactly the
pixels a set sprite bit falls on, wrapped on both axes; VF is 1 exactly when one of them was set before; the coordinates are
the old registers; the display is marked dirty; I, memory and every other register are unchanged. -/
def Obligations.DrawResult : Prop :=
  ∀ (x y : RegIndex) (n : BitVec 4) (s : State), ∃ t, exec (.drw x y n) s = .next t ∧
    (∀ px py, t.disp.pixel px py = true ↔
      (s.disp.pixel px py = true ↔ ¬ s.SpriteCovers (s.reg x).toNat (s.reg y).toNat n.toNat px py)) ∧
    ((∃ px py, s.SpriteCovers (s.reg x).toNat (s.reg y).toNat n.toNat px py ∧ s.disp.pixel px py = true) →
      t.reg vf = 1) ∧
    ((¬ ∃ px py, s.SpriteCovers (s.reg x).toNat (s.reg y).toNat n.toNat px py ∧ s.disp.pixel px py = true) →
      t.reg vf = 0) ∧
    t.dirty = true ∧ RegsKeptBut vf s t ∧ IpAdvances 2 s t ∧
    t = { s with v := t.v, disp := t.disp, dirty := t.dirty, ip := t.ip } ∧ MemoryKept s t

/-- R201, its corner case (D17; log 13): drawing the same sprite at the same place again restores the display; the second
draw reports a collision exactly when the first one set a pixel, so on a blank display exactly when the sprite has a set
bit (the corner case's sentence "the second draw reports collision if the sprite has any set bit" fails by the rule's own
pseudocode where the first draw only cleared pixels; log 13). -/
def Obligations.DrawTwiceRestoresDisplay : Prop :=
  ∀ (x y : RegIndex) (n : BitVec 4) (s t u : State), exec (.drw x y n) s = .next t →
    exec (.drw x y n) { t with v := s.v } = .next u →
    u.disp = s.disp ∧
    (u.reg vf = 1 ↔ ∃ px py, s.SpriteCovers (s.reg x).toNat (s.reg y).toNat n.toNat px py ∧
      s.disp.pixel px py = false) ∧
    ((∀ px py, s.disp.pixel px py = false) →
      (u.reg vf = 1 ↔ ∃ row < n.toNat, s.memRead (s.i + BitVec.ofNat 16 row) ≠ 0))

/-! ## Keys and timers (`44_keys_timers.md`) -/

/-- R218, R219, R220: the register and timer copies (their low bytes: log 14). -/
def Obligations.TimerCopyResults : Prop :=
  ∀ (x : RegIndex) (s : State),
    (∃ t, exec (.ldVxDt x) s = .next t ∧ t.reg x = s.dt ∧ RegsKeptBut x s t ∧ IpAdvances 2 s t ∧ OnlyRegsIp s t) ∧
    (∃ t, exec (.ldDtVx x) s = .next t ∧ t.dt = s.reg x ∧ IpAdvances 2 s t ∧
      t = { s with dt := t.dt, ip := t.ip } ∧ MemoryKept s t) ∧
    (∃ t, exec (.ldStVx x) s = .next t ∧ t.st = s.reg x ∧ IpAdvances 2 s t ∧
      t = { s with st := t.st, ip := t.ip } ∧ MemoryKept s t)

/-- R221 (IP advances in the same step: D14; log 19): LD Vx, K latches x and begins the wait; no general register is
written. -/
def Obligations.KeyWaitBegins : Prop :=
  ∀ (x : RegIndex) (s : State), ∃ t, exec (.ldVxK x) s = .next t ∧ t.wait = true ∧ t.waitReg = x ∧
    t.isWaitingForKey = true ∧ IpAdvances 2 s t ∧
    t = { s with wait := t.wait, waitReg := t.waitReg, ip := t.ip } ∧ MemoryKept s t

/-- R221, R222, R225 and the source's example E9 (D13, D14; log 7, log 19): after a key-wait the core is stuck; the next
`keyDown(k)` stores k in the latched register and clears the flag, and the core runs on at the next instruction. -/
def Obligations.KeyWaitCompletes : Prop :=
  ∀ (x : RegIndex) (s t : State) (k : Nat), exec (.ldVxK x) s = .next t → k < 16 →
    coreStep t = .fault .keyWaitPending ∧
    ∃ u, hostStep (.keyDown k) t = .next u ∧ (u.reg x).toNat = k ∧ RegsKeptBut x s u ∧ u.wait = false ∧
      u.ip = s.ip + 2 ∧ coreStep u = exec (decode (s.fetchWord (s.ip + 2))) u

/-! ## Index register and memory (`45_index_memory.md`) -/

/-- R235, R236, R237 (LD I: D25, log 25; the wrap of ADD I: D16, log 11): the three writers of I; no flag. -/
def Obligations.IndexResults : Prop :=
  ∀ (nnn : Address) (x : RegIndex) (s : State),
    (∃ t, exec (.ldI nnn) s = .next t ∧ t.i.toNat = nnn.toNat ∧ IpAdvances 2 s t ∧ OnlyIndexIp s t) ∧
    (∃ t, exec (.addIVx x) s = .next t ∧ t.i.toNat = (s.i.toNat + (s.reg x).toNat) % 65536 ∧ IpAdvances 2 s t ∧
      OnlyIndexIp s t) ∧
    (∃ t, exec (.ldFVx x) s = .next t ∧ t.i.toNat = (s.reg x).toNat % 16 * 5 ∧ IpAdvances 2 s t ∧ OnlyIndexIp s t)

/-- R238: BCD-store is a no-op: no register, memory byte or flag changes (the low byte 0x33: log 14). -/
def Obligations.BcdStoreIsNoOp : Prop :=
  ∀ (x : RegIndex) (s : State), ∃ t, exec (.ldBVx x) s = .next t ∧ IpAdvances 2 s t ∧ OnlyIp s t

/-- R255, R102 (which words are UNKNOWN: D5, D6, D7, log 14; the wrap of IP: D16, log 11): every word that no row of the
table selects decodes to UNKNOWN, and UNKNOWN is a no-op that advances IP by 2 modulo 65536. -/
def Obligations.UnknownIsNoOp : Prop :=
  (∀ w : Word, decode w = .unknown ↔ ∀ r ∈ opcodeTable, r.selects w = false) ∧
  ∀ s : State, ∃ t, exec .unknown s = .next t ∧ t.ip.toNat = (s.ip.toNat + 2) % 65536 ∧ OnlyIp s t

/-- R239 (I advances: D15, log 20; address wrap D16, log 11): LD [I], Vx stores V0 to V[x] at I, I + 1, ..., where those are
memory; every other byte is kept; I ends x + 1 above its start; nothing else changes. -/
def Obligations.BlockStoreResult : Prop :=
  ∀ (x : RegIndex) (s : State), Memory.wf s.mem = true → ∃ t, exec (.stBlock x) s = .next t ∧
    (∀ j : Nat, j ≤ x.toNat → (s.i + BitVec.ofNat 16 j).toNat < 4096 →
      t.memRead (s.i + BitVec.ofNat 16 j) = s.reg (BitVec.ofNat 4 j)) ∧
    (∀ a : Word, (∀ j : Nat, j ≤ x.toNat → a ≠ s.i + BitVec.ofNat 16 j) → t.memRead a = s.memRead a) ∧
    t.i.toNat = (s.i.toNat + x.toNat + 1) % 65536 ∧ IpAdvances 2 s t ∧
    t = { s with mem := t.mem, i := t.i, ip := t.ip }

/-- R240 (I advances: D15, log 20; address wrap D16, log 11): LD Vx, [I] loads V0 to V[x] from I, I + 1, ... (0 beyond
memory); higher registers are kept; I ends x + 1 above its start; nothing else changes. -/
def Obligations.BlockLoadResult : Prop :=
  ∀ (x : RegIndex) (s : State), ∃ t, exec (.ldBlock x) s = .next t ∧
    (∀ r : RegIndex, r.toNat ≤ x.toNat → t.reg r = s.memRead (s.i + BitVec.ofNat 16 r.toNat)) ∧
    (∀ r : RegIndex, x.toNat < r.toNat → t.reg r = s.reg r) ∧
    t.i.toNat = (s.i.toNat + x.toNat + 1) % 65536 ∧ IpAdvances 2 s t ∧
    t = { s with v := t.v, i := t.i, ip := t.ip } ∧ MemoryKept s t

/-- R239, R240: a block load from where a block store of the same length wrote (all of it in memory) gives the stored
registers back, whatever the registers held in between. -/
def Obligations.BlockLoadReadsBlockStore : Prop :=
  ∀ (x : RegIndex) (s t u : State), Memory.wf s.mem = true → s.i.toNat + x.toNat < 4096 →
    exec (.stBlock x) s = .next t → u.mem = t.mem → u.i = s.i →
    ∃ w, exec (.ldBlock x) u = .next w ∧ (∀ r : RegIndex, r.toNat ≤ x.toNat → w.reg r = s.reg r) ∧ w.i = t.i

/-! ## Memory (`20_memory.md`) -/

/-- R62: a read below 4096 gives the byte of memory there (the one the canonical list holds, else the unlisted byte), at
4096 and above it gives 0x00. -/
def Obligations.MemReadBounded : Prop :=
  ∀ (s : State) (a : Word),
    (a.toNat < 4096 → s.memRead a = Memory.lookup s.mem a.toNat) ∧ (4096 ≤ a.toNat → s.memRead a = 0)

/-- R63: a write below 4096 makes that byte the one written and keeps every other byte, a write at 4096 or above changes no
state; no address is protected. -/
def Obligations.MemWriteBounded : Prop :=
  ∀ (s : State) (a : Word) (b : Byte), Memory.wf s.mem = true →
    (a.toNat < 4096 → (s.memWrite a b).memRead a = b ∧ (∀ c, c ≠ a → (s.memWrite a b).memRead c = s.memRead c) ∧
      s.memWrite a b = { s with mem := (s.memWrite a b).mem }) ∧
    (4096 ≤ a.toNat → s.memWrite a b = s)

/-- R76 [derived]: two adjacent registers that a block store put in memory are the word the next fetch there sees. -/
def Obligations.StoredWordIsFetched : Prop :=
  ∀ (x : RegIndex) (s t : State) (j : Nat), Memory.wf s.mem = true → exec (.stBlock x) s = .next t →
    j + 1 ≤ x.toNat → s.i.toNat + j + 1 < 4096 →
    t.fetchWord (s.i + BitVec.ofNat 16 j) = wordOfBytes (s.reg (BitVec.ofNat 4 j)) (s.reg (BitVec.ofNat 4 (j + 1)))

/-- R72 (MEM only: D29; log 18): `loadProgram` puts byte j of the image at offset + j while that is below 4096, keeps every
other byte, and changes nothing else. -/
def Obligations.LoadProgramResult : Prop :=
  ∀ (bytes : List Byte) (offset : Nat) (s : State), Memory.wf s.mem = true →
    ∃ t, hostStep (.loadProgram bytes offset) s = .next t ∧
      (∀ j b, bytes[j]? = some b → offset + j < 4096 → t.memRead (BitVec.ofNat 16 (offset + j)) = b) ∧
      (∀ a : Word, (a.toNat < offset ∨ offset + bytes.length ≤ a.toNat) → t.memRead a = s.memRead a) ∧
      t = { s with mem := t.mem }

/-! ## Invariants and reset (`10_state.md`, `70_reset_and_hazards.md`) -/

/-- Every step, the core's or the host's, keeps memory in the model's own canonical form (log 5) and SP, as D3 counts it
(log 21), at most 16 (R38). -/
def Obligations.StepKeepsInvariant : Prop :=
  ∀ s t : State, s.Inv → step s = .next t → t.Inv

/-- The reset state meets the invariant: SP = 0 (D2; log 4) is at most 16, and memory with nothing listed is in the model's
own canonical form (log 5). -/
def Obligations.ResetMeetsInvariant : Prop := State.reset.Inv

/-- R40, R321 (all these values are D2; log 4, log 5): what reset leaves. -/
def Obligations.ResetValues : Prop :=
  (∀ r, State.reset.reg r = 0) ∧ State.reset.i = 0 ∧ State.reset.ip = 0x0200 ∧ State.reset.sp = 0 ∧
  (∀ j : Nat, j < 16 → State.reset.stack[j]? = some 0) ∧ State.reset.dt = 0 ∧ State.reset.st = 0 ∧
  State.reset.keys = 0 ∧ State.reset.wait = false ∧ State.reset.waitReg = 0 ∧
  (∀ px py, State.reset.disp.pixel px py = false) ∧ State.reset.dirty = true ∧
  (∀ a : Word, 80 ≤ a.toNat → State.reset.memRead a = 0)

/-- R33, R7 (FONT is a parameter, D22; its default table is log 3): the reset state of a machine with any font of 80 bytes
has that font in MEM[0..79] and zeros above (D2; log 5), and `State.reset` is the one with the default font. -/
def Obligations.ResetHoldsTheFont : Prop :=
  (∀ (f : List Byte) (a : Word), f.length = 80 → a.toNat < 80 →
    some ((State.resetWith f).memRead a) = f[a.toNat]?) ∧
  (∀ (f : List Byte) (a : Word), f.length = 80 → 80 ≤ a.toNat → (State.resetWith f).memRead a = 0) ∧
  State.resetWith font = State.reset ∧ font.length = 80

/-! ## Whole-machine rules -/

/-- R107 [derived] (and R141, R22; the wrap of IP is D16, log 11; the writes to I are D15 and D25, log 20, log 25): for every
instruction, execution keeps within columns `pc`, `Vwr`, `VFwr`, `mem` and `other` of its kind's row: IP becomes what `pc`
says, where a skip is + 2 or + 4 without its condition, and no register, memory byte or other element is written that the row
does not list. Column `alu` is used for the draw of RND alone, and the reads of column `mem` not at all (log 23). -/
def Obligations.ControlSignalsDescribeExec : Prop :=
  ∀ (i : Instr) (s t : State), exec i s = .next t → (controlSignals i.kind).Describes i s t

/-- R22, R24 to R32, R35, R36, R69, R224, R334: over every step, each element of the hardware's state changes only by the
instructions or the host actions named here. Clauses that rest on a decision of the spec: ST only by LD ST (D21; log 28),
DIRTY cleared only by the display read (D20; log 16), I by block transfers and by LD I (D15, D25; log 20, log 25), the stack
layout (D3; log 21), `loadProgram` on memory alone (D29; log 18); the registers a kind may write are the derived table's
(R107; log 23); WAITREG kept outside LD Vx, K is read from R221, R225, R226. -/
def Obligations.StateChangesOnlyAsTheRulesSay : Prop :=
  ∀ s t : State, step s = .next t →
    (t.st ≠ s.st → s.coreTurn ∧ ∃ x, s.nextInstr = .ldStVx x) ∧
    (t.dt ≠ s.dt → (s.coreTurn ∧ ∃ x, s.nextInstr = .ldDtVx x) ∨ ∃ rest, s.schedule = .host .tickDT :: rest) ∧
    (t.dt.toNat > s.dt.toNat → s.coreTurn ∧ ∃ x, s.nextInstr = .ldDtVx x) ∧
    (t.keys ≠ s.keys → ∃ k rest, s.schedule = .host (.keyDown k) :: rest ∨ s.schedule = .host (.keyUp k) :: rest) ∧
    (s.wait = false → t.wait = true → s.coreTurn ∧ ∃ x, s.nextInstr = .ldVxK x) ∧
    (s.wait = true → t.wait = false → ∃ k rest, s.schedule = .host (.keyDown k) :: rest) ∧
    (t.stack ≠ s.stack → s.coreTurn ∧ ∃ nnn, s.nextInstr = .call nnn) ∧
    (t.sp ≠ s.sp → s.coreTurn ∧ ((∃ nnn, s.nextInstr = .call nnn) ∨ s.nextInstr = .ret)) ∧
    (t.disp ≠ s.disp → s.coreTurn ∧ (s.nextInstr = .cls ∨ ∃ x y n, s.nextInstr = .drw x y n)) ∧
    (t.dirty = false → s.dirty = true → ∃ rest, s.schedule = .host .readDisplay :: rest) ∧
    (t.mem ≠ s.mem → (s.coreTurn ∧ ∃ x, s.nextInstr = .stBlock x) ∨
      ∃ bytes offset rest, s.schedule = .host (.loadProgram bytes offset) :: rest) ∧
    (t.i ≠ s.i → s.coreTurn ∧ s.nextInstr.kind ∈ [.ldI, .addIVx, .ldFVx, .stBlock, .ldBlock]) ∧
    (t.ip ≠ s.ip → s.coreTurn) ∧
    (t.waitReg ≠ s.waitReg → s.coreTurn ∧ ∃ x, s.nextInstr = .ldVxK x) ∧
    (∀ r, t.reg r ≠ s.reg r →
      (s.coreTurn ∧ (controlSignals s.nextInstr.kind).MayWrite s.nextInstr r) ∨
      (s.wait = true ∧ s.waitReg = r ∧ ∃ k rest, s.schedule = .host (.keyDown k) :: rest))

/-- R29 (x = 15 is D9, log 12; the draw's flag is D17, log 13): the six flag-writing kinds leave 0 or 1 in VF; any other
instruction changes VF only as its named destination, register 15. -/
def Obligations.FlagIsZeroOrOneAndOnlyWhereNamed : Prop :=
  ∀ (i : Instr) (s t : State), exec i s = .next t →
    (i.kind ∈ [.addReg, .sub, .subn, .shr, .shl, .drw] → t.reg vf = 0 ∨ t.reg vf = 1) ∧
    (i.kind ∉ [.addReg, .sub, .subn, .shr, .shl, .drw] → t.reg vf ≠ s.reg vf → i.descriptor.dst = some 15)

/-- R290, R296 (the faults are the model's: D4, log 8, log 9): no instruction is ever refused, and one faults exactly when it
is CALL on a full stack (U1), RET on an empty one (U2), or RET with SP above 16 (the model's own third fault, log 9); with SP
at most 16, as in every defined run (R38), the two undefined conditions alone remain. -/
def Obligations.ExecStopsOnlyOnTheStack : Prop :=
  ∀ (i : Instr) (s : State), (∀ r, exec i s ≠ .refused r) ∧
    (∀ f, exec i s = .fault f ↔
      (f = .stackOverflow ∧ 16 ≤ s.sp.toNat ∧ ∃ nnn, i = .call nnn) ∨
      (f = .stackUnderflow ∧ s.sp.toNat = 0 ∧ i = .ret) ∨
      (f = .stackPointerOutOfRange ∧ 16 < s.sp.toNat ∧ i = .ret)) ∧
    (s.sp.toNat ≤ 16 → ∀ f, exec i s = .fault f →
      (f = .stackOverflow ∧ s.sp.toNat = 16 ∧ ∃ nnn, i = .call nnn) ∨
      (f = .stackUnderflow ∧ s.sp.toNat = 0 ∧ i = .ret))

/-- R290, R332: from every state that meets the invariant, on the core's turn, with no key-wait pending and the program's duty
on the call stack met, the step completes and the invariant holds after it. -/
def Obligations.DutifulCoreAlwaysRuns : Prop :=
  ∀ s : State, s.Inv → s.coreTurn → s.wait = false →
    (∀ nnn, s.nextInstr = .call nnn → s.sp.toNat < 16) → (s.nextInstr = .ret → 0 < s.sp.toNat) →
    ∃ t, step s = .next t ∧ t.Inv

/-! ## Host operations (`44_keys_timers.md`, `43_display.md`) -/

/-- R225 (the latch bit is set whether or not a wait is pending: [derived]): `keyDown(k)` sets bit k; with a wait pending it
stores k in V[WAITREG] and clears WAIT; nothing else changes. -/
def Obligations.KeyDownResult : Prop :=
  ∀ (k : Nat) (s : State), k < 16 → ∃ t, hostStep (.keyDown k) s = .next t ∧
    (∀ j : Nat, j < 16 → t.keys.getLsbD j = (decide (j = k) || s.keys.getLsbD j)) ∧
    (s.wait = false → t = { s with keys := t.keys }) ∧
    (s.wait = true → (t.reg s.waitReg).toNat = k ∧ RegsKeptBut s.waitReg s t ∧ t.wait = false ∧
      t = { s with keys := t.keys, v := t.v, wait := false })

/-- R226: `keyUp(k)`, k in 0 to 15, clears bit k of KEYS; it never ends a wait and writes nothing else. -/
def Obligations.KeyUpResult : Prop :=
  ∀ (k : Nat) (s : State), k < 16 → ∃ t, hostStep (.keyUp k) s = .next t ∧
    (∀ j : Nat, j < 16 → t.keys.getLsbD j = (!decide (j = k) && s.keys.getLsbD j)) ∧
    t.wait = s.wait ∧ t = { s with keys := t.keys }

/-- R229: `tickDT` decrements DT if it is not 0 and leaves it at 0 otherwise; it is enabled in every state and changes
nothing else. -/
def Obligations.TickResult : Prop :=
  ∀ s : State, ∃ t, hostStep .tickDT s = .next t ∧ t.dt.toNat = s.dt.toNat - 1 ∧ t = { s with dt := t.dt }

/-- R202, R35, R36 (the byte layout is D19, clearing DIRTY is D20; log 16): the display read gives 256 bytes, pixel (px, py)
in bit 7 - (px mod 8) of byte 8 py + px / 8, and clears DIRTY and nothing else. -/
def Obligations.DisplayReadResult : Prop :=
  ∀ s : State, hostStep .readDisplay s = .next { s with dirty := false } ∧ s.displayOutput.length = 256 ∧
    ∀ (px : Fin 64) (py : Fin 32), ∃ b, s.displayOutput[8 * py.val + px.val / 8]? = some b ∧
      b.getLsbD (7 - px.val % 8) = s.disp.pixel px py

/-- R224, R227 (an index above 15: D26, log 10): during a key-wait every host action whose key index is in range is enabled
and leaves IP alone, only `keyDown` ends the wait; an index above 15 has no transition in any state. -/
def Obligations.OnlyKeyDownEndsTheWait : Prop :=
  (∀ (a : HostAction) (s : State), s.wait = true →
    (∀ k, (a = .keyDown k ∨ a = .keyUp k) → k < 16) →
    ∃ t, hostStep a s = .next t ∧ t.ip = s.ip ∧ (t.wait = false ↔ ∃ k, a = .keyDown k)) ∧
  (∀ (k : Nat) (s : State), 16 ≤ k →
    hostStep (.keyDown k) s = .refused .keyIndexOutOfRange ∧ hostStep (.keyUp k) s = .refused .keyIndexOutOfRange)

/-! ## The disassembler (`47_disassembler.md`) -/

/-- R265, R266, R268 (a) (the lone last byte, R267, is D24; log 26): the lines cover the buffer without gap or overlap, each
at the sum of the sizes before it; an instruction line is the valid decoding of its two bytes, and a raw line is one byte
that has no partner or starts an Unknown word. -/
def Obligations.ListingCoversTheBuffer : Prop :=
  ∀ (buf : List Byte) (origin : Nat),
    ((walk origin buf).map (·.item.size)).sum = buf.length ∧ (walk origin buf).length ≤ buf.length ∧
    ∀ (n : Nat) (l : Line), (walk origin buf)[n]? = some l →
      l.address = origin + (((walk origin buf).take n).map (·.item.size)).sum ∧
      match l.item with
      | .insn i => i ≠ .unknown ∧ ∃ hi lo, buf[l.address - origin]? = some hi ∧
          buf[l.address - origin + 1]? = some lo ∧ decode (wordOfBytes hi lo) = i
      | .raw b => buf[l.address - origin]? = some b ∧
          ∀ lo, buf[l.address - origin + 1]? = some lo → decode (wordOfBytes b lo) = .unknown

/-- R268 (e), R105 [derived]: the listing of assembled code is the assembled instructions, one line per word, at even
offsets. -/
def Obligations.ListingOfAssembledCode : Prop :=
  ∀ (is : List Instr) (origin : Nat), (∀ i ∈ is, i.assemblable = true) →
    walk origin (is.flatMap fun i => (encodeBytes i).getD []) =
      is.zipIdx.map fun p => ⟨origin + 2 * p.2, .insn p.1⟩

/-- R261, R264, R268 (b) (mnemonics and formats: D23, D24; log 26): the source's example line; an instruction has a text
exactly when it is not UNKNOWN; a run of m zero bytes gives m raw lines. -/
def Obligations.ListingText : Prop :=
  disassemble [0x61, 0x04] 0x200 = ["0x200: LD V1, #0x04"] ∧
  (∀ i : Instr, instrText i = none ↔ i = .unknown) ∧
  (∀ m origin : Nat, walk origin (List.replicate m 0) = (List.range m).map fun j => ⟨origin + j, .raw 0⟩)

/-! ## The assembler (`30_encoding.md` section 6; out of scope as a machine by R5, log 30) -/

/-- R127, R131, R262 (mnemonics and formats: D23, D24; log 26, log 30): assembling the text the disassembler gives an
instruction gives back the instruction's word, at any origin. -/
def Obligations.AssemblingTheTextGivesTheWord : Prop :=
  ∀ (i : Instr) (origin : Nat), i.assemblable = true →
    ∃ text w, instrText i = some text ∧ encode i = some w ∧ assemble text.toList origin = .ok (bytesOfWord w)

/-- R125, R129 to R131, and the source's examples E3, E4, E6 (the origin 0x200 of the last: log 30): whatever is assembled
is the encodings of instructions and nothing else, at most one for each line of the text (lines end at a newline: log 30);
there is no forward reference. -/
def Obligations.AssembledOutputIsInstructions : Prop :=
  (∀ (source : List Char) (origin : Nat) (bytes : List Byte), assemble source origin = .ok bytes →
    ∃ is : List Instr, (∀ i ∈ is, i.assemblable = true) ∧ bytes = (is.flatMap fun i => (encodeBytes i).getD []) ∧
      is.length ≤ (splitOn (· == '\n') [] source).length) ∧
  assemble "CLS".toList 0x200 = .ok [0x00, 0xE0] ∧
  assemble "LD V1,#4\nLD V0,#10\nADD V1,V0".toList 0x200 = .ok [0x61, 0x04, 0x60, 0x0A, 0x81, 0x04] ∧
  assemble "JP LOOP\nLOOP: CLS".toList 0x200 = .error ⟨0, .undeclaredIdentifier⟩ ∧
  assemble "LOOP: CLS\nJP LOOP".toList 0x200 = .ok [0x00, 0xE0, 0x12, 0x00]
end

