-- ==== Sys2Proof/Laws/State.lean ====
section
/-! SUPPORT. One lemma per field per named update, true by rfl: what the update writes, and that every other field is
as before. -/

namespace Sys2Proof.Machine

variable (s : State)

/-! ### `memWrite` -/

@[simp] theorem memWrite_v (a : Word) (b : Byte) : (s.memWrite a b).v = s.v := rfl
@[simp] theorem memWrite_i (a : Word) (b : Byte) : (s.memWrite a b).i = s.i := rfl
@[simp] theorem memWrite_ip (a : Word) (b : Byte) : (s.memWrite a b).ip = s.ip := rfl
@[simp] theorem memWrite_sp (a : Word) (b : Byte) : (s.memWrite a b).sp = s.sp := rfl
@[simp] theorem memWrite_stack (a : Word) (b : Byte) : (s.memWrite a b).stack = s.stack := rfl
@[simp] theorem memWrite_dt (a : Word) (b : Byte) : (s.memWrite a b).dt = s.dt := rfl
@[simp] theorem memWrite_st (a : Word) (b : Byte) : (s.memWrite a b).st = s.st := rfl
@[simp] theorem memWrite_keys (a : Word) (b : Byte) : (s.memWrite a b).keys = s.keys := rfl
@[simp] theorem memWrite_wait (a : Word) (b : Byte) : (s.memWrite a b).wait = s.wait := rfl
@[simp] theorem memWrite_waitReg (a : Word) (b : Byte) : (s.memWrite a b).waitReg = s.waitReg := rfl
@[simp] theorem memWrite_mem (a : Word) (b : Byte) : (s.memWrite a b).mem = Memory.write s.mem a b := rfl
@[simp] theorem memWrite_disp (a : Word) (b : Byte) : (s.memWrite a b).disp = s.disp := rfl
@[simp] theorem memWrite_dirty (a : Word) (b : Byte) : (s.memWrite a b).dirty = s.dirty := rfl
@[simp] theorem memWrite_draws (a : Word) (b : Byte) : (s.memWrite a b).draws = s.draws := rfl
@[simp] theorem memWrite_schedule (a : Word) (b : Byte) : (s.memWrite a b).schedule = s.schedule := rfl

/-! ### `setReg` -/

@[simp] theorem setReg_v (x : RegIndex) (b : Byte) : (s.setReg x b).v = s.v.set x.toNat b x.isLt := rfl
@[simp] theorem setReg_i (x : RegIndex) (b : Byte) : (s.setReg x b).i = s.i := rfl
@[simp] theorem setReg_ip (x : RegIndex) (b : Byte) : (s.setReg x b).ip = s.ip := rfl
@[simp] theorem setReg_sp (x : RegIndex) (b : Byte) : (s.setReg x b).sp = s.sp := rfl
@[simp] theorem setReg_stack (x : RegIndex) (b : Byte) : (s.setReg x b).stack = s.stack := rfl
@[simp] theorem setReg_dt (x : RegIndex) (b : Byte) : (s.setReg x b).dt = s.dt := rfl
@[simp] theorem setReg_st (x : RegIndex) (b : Byte) : (s.setReg x b).st = s.st := rfl
@[simp] theorem setReg_keys (x : RegIndex) (b : Byte) : (s.setReg x b).keys = s.keys := rfl
@[simp] theorem setReg_wait (x : RegIndex) (b : Byte) : (s.setReg x b).wait = s.wait := rfl
@[simp] theorem setReg_waitReg (x : RegIndex) (b : Byte) : (s.setReg x b).waitReg = s.waitReg := rfl
@[simp] theorem setReg_mem (x : RegIndex) (b : Byte) : (s.setReg x b).mem = s.mem := rfl
@[simp] theorem setReg_disp (x : RegIndex) (b : Byte) : (s.setReg x b).disp = s.disp := rfl
@[simp] theorem setReg_dirty (x : RegIndex) (b : Byte) : (s.setReg x b).dirty = s.dirty := rfl
@[simp] theorem setReg_draws (x : RegIndex) (b : Byte) : (s.setReg x b).draws = s.draws := rfl
@[simp] theorem setReg_schedule (x : RegIndex) (b : Byte) : (s.setReg x b).schedule = s.schedule := rfl

/-! ### `setFlag` -/

@[simp] theorem setFlag_v (f : Bool) : (s.setFlag f).v = (s.setReg vf (flagByte f)).v := rfl
@[simp] theorem setFlag_i (f : Bool) : (s.setFlag f).i = s.i := rfl
@[simp] theorem setFlag_ip (f : Bool) : (s.setFlag f).ip = s.ip := rfl
@[simp] theorem setFlag_sp (f : Bool) : (s.setFlag f).sp = s.sp := rfl
@[simp] theorem setFlag_stack (f : Bool) : (s.setFlag f).stack = s.stack := rfl
@[simp] theorem setFlag_dt (f : Bool) : (s.setFlag f).dt = s.dt := rfl
@[simp] theorem setFlag_st (f : Bool) : (s.setFlag f).st = s.st := rfl
@[simp] theorem setFlag_keys (f : Bool) : (s.setFlag f).keys = s.keys := rfl
@[simp] theorem setFlag_wait (f : Bool) : (s.setFlag f).wait = s.wait := rfl
@[simp] theorem setFlag_waitReg (f : Bool) : (s.setFlag f).waitReg = s.waitReg := rfl
@[simp] theorem setFlag_mem (f : Bool) : (s.setFlag f).mem = s.mem := rfl
@[simp] theorem setFlag_disp (f : Bool) : (s.setFlag f).disp = s.disp := rfl
@[simp] theorem setFlag_dirty (f : Bool) : (s.setFlag f).dirty = s.dirty := rfl
@[simp] theorem setFlag_draws (f : Bool) : (s.setFlag f).draws = s.draws := rfl
@[simp] theorem setFlag_schedule (f : Bool) : (s.setFlag f).schedule = s.schedule := rfl

/-! ### `setIndex` -/

@[simp] theorem setIndex_v (a : Word) : (s.setIndex a).v = s.v := rfl
@[simp] theorem setIndex_i (a : Word) : (s.setIndex a).i = a := rfl
@[simp] theorem setIndex_ip (a : Word) : (s.setIndex a).ip = s.ip := rfl
@[simp] theorem setIndex_sp (a : Word) : (s.setIndex a).sp = s.sp := rfl
@[simp] theorem setIndex_stack (a : Word) : (s.setIndex a).stack = s.stack := rfl
@[simp] theorem setIndex_dt (a : Word) : (s.setIndex a).dt = s.dt := rfl
@[simp] theorem setIndex_st (a : Word) : (s.setIndex a).st = s.st := rfl
@[simp] theorem setIndex_keys (a : Word) : (s.setIndex a).keys = s.keys := rfl
@[simp] theorem setIndex_wait (a : Word) : (s.setIndex a).wait = s.wait := rfl
@[simp] theorem setIndex_waitReg (a : Word) : (s.setIndex a).waitReg = s.waitReg := rfl
@[simp] theorem setIndex_mem (a : Word) : (s.setIndex a).mem = s.mem := rfl
@[simp] theorem setIndex_disp (a : Word) : (s.setIndex a).disp = s.disp := rfl
@[simp] theorem setIndex_dirty (a : Word) : (s.setIndex a).dirty = s.dirty := rfl
@[simp] theorem setIndex_draws (a : Word) : (s.setIndex a).draws = s.draws := rfl
@[simp] theorem setIndex_schedule (a : Word) : (s.setIndex a).schedule = s.schedule := rfl

/-! ### `setIp` -/

@[simp] theorem setIp_v (a : Word) : (s.setIp a).v = s.v := rfl
@[simp] theorem setIp_i (a : Word) : (s.setIp a).i = s.i := rfl
@[simp] theorem setIp_ip (a : Word) : (s.setIp a).ip = a := rfl
@[simp] theorem setIp_sp (a : Word) : (s.setIp a).sp = s.sp := rfl
@[simp] theorem setIp_stack (a : Word) : (s.setIp a).stack = s.stack := rfl
@[simp] theorem setIp_dt (a : Word) : (s.setIp a).dt = s.dt := rfl
@[simp] theorem setIp_st (a : Word) : (s.setIp a).st = s.st := rfl
@[simp] theorem setIp_keys (a : Word) : (s.setIp a).keys = s.keys := rfl
@[simp] theorem setIp_wait (a : Word) : (s.setIp a).wait = s.wait := rfl
@[simp] theorem setIp_waitReg (a : Word) : (s.setIp a).waitReg = s.waitReg := rfl
@[simp] theorem setIp_mem (a : Word) : (s.setIp a).mem = s.mem := rfl
@[simp] theorem setIp_disp (a : Word) : (s.setIp a).disp = s.disp := rfl
@[simp] theorem setIp_dirty (a : Word) : (s.setIp a).dirty = s.dirty := rfl
@[simp] theorem setIp_draws (a : Word) : (s.setIp a).draws = s.draws := rfl
@[simp] theorem setIp_schedule (a : Word) : (s.setIp a).schedule = s.schedule := rfl

/-! ### `advance` -/

@[simp] theorem advance_v (n : Nat) : (s.advance n).v = s.v := rfl
@[simp] theorem advance_i (n : Nat) : (s.advance n).i = s.i := rfl
@[simp] theorem advance_ip (n : Nat) : (s.advance n).ip = s.ip + BitVec.ofNat 16 n := rfl
@[simp] theorem advance_sp (n : Nat) : (s.advance n).sp = s.sp := rfl
@[simp] theorem advance_stack (n : Nat) : (s.advance n).stack = s.stack := rfl
@[simp] theorem advance_dt (n : Nat) : (s.advance n).dt = s.dt := rfl
@[simp] theorem advance_st (n : Nat) : (s.advance n).st = s.st := rfl
@[simp] theorem advance_keys (n : Nat) : (s.advance n).keys = s.keys := rfl
@[simp] theorem advance_wait (n : Nat) : (s.advance n).wait = s.wait := rfl
@[simp] theorem advance_waitReg (n : Nat) : (s.advance n).waitReg = s.waitReg := rfl
@[simp] theorem advance_mem (n : Nat) : (s.advance n).mem = s.mem := rfl
@[simp] theorem advance_disp (n : Nat) : (s.advance n).disp = s.disp := rfl
@[simp] theorem advance_dirty (n : Nat) : (s.advance n).dirty = s.dirty := rfl
@[simp] theorem advance_draws (n : Nat) : (s.advance n).draws = s.draws := rfl
@[simp] theorem advance_schedule (n : Nat) : (s.advance n).schedule = s.schedule := rfl

/-! ### `setDelay` -/

@[simp] theorem setDelay_v (b : Byte) : (s.setDelay b).v = s.v := rfl
@[simp] theorem setDelay_i (b : Byte) : (s.setDelay b).i = s.i := rfl
@[simp] theorem setDelay_ip (b : Byte) : (s.setDelay b).ip = s.ip := rfl
@[simp] theorem setDelay_sp (b : Byte) : (s.setDelay b).sp = s.sp := rfl
@[simp] theorem setDelay_stack (b : Byte) : (s.setDelay b).stack = s.stack := rfl
@[simp] theorem setDelay_dt (b : Byte) : (s.setDelay b).dt = b := rfl
@[simp] theorem setDelay_st (b : Byte) : (s.setDelay b).st = s.st := rfl
@[simp] theorem setDelay_keys (b : Byte) : (s.setDelay b).keys = s.keys := rfl
@[simp] theorem setDelay_wait (b : Byte) : (s.setDelay b).wait = s.wait := rfl
@[simp] theorem setDelay_waitReg (b : Byte) : (s.setDelay b).waitReg = s.waitReg := rfl
@[simp] theorem setDelay_mem (b : Byte) : (s.setDelay b).mem = s.mem := rfl
@[simp] theorem setDelay_disp (b : Byte) : (s.setDelay b).disp = s.disp := rfl
@[simp] theorem setDelay_dirty (b : Byte) : (s.setDelay b).dirty = s.dirty := rfl
@[simp] theorem setDelay_draws (b : Byte) : (s.setDelay b).draws = s.draws := rfl
@[simp] theorem setDelay_schedule (b : Byte) : (s.setDelay b).schedule = s.schedule := rfl

/-! ### `setSound` -/

@[simp] theorem setSound_v (b : Byte) : (s.setSound b).v = s.v := rfl
@[simp] theorem setSound_i (b : Byte) : (s.setSound b).i = s.i := rfl
@[simp] theorem setSound_ip (b : Byte) : (s.setSound b).ip = s.ip := rfl
@[simp] theorem setSound_sp (b : Byte) : (s.setSound b).sp = s.sp := rfl
@[simp] theorem setSound_stack (b : Byte) : (s.setSound b).stack = s.stack := rfl
@[simp] theorem setSound_dt (b : Byte) : (s.setSound b).dt = s.dt := rfl
@[simp] theorem setSound_st (b : Byte) : (s.setSound b).st = b := rfl
@[simp] theorem setSound_keys (b : Byte) : (s.setSound b).keys = s.keys := rfl
@[simp] theorem setSound_wait (b : Byte) : (s.setSound b).wait = s.wait := rfl
@[simp] theorem setSound_waitReg (b : Byte) : (s.setSound b).waitReg = s.waitReg := rfl
@[simp] theorem setSound_mem (b : Byte) : (s.setSound b).mem = s.mem := rfl
@[simp] theorem setSound_disp (b : Byte) : (s.setSound b).disp = s.disp := rfl
@[simp] theorem setSound_dirty (b : Byte) : (s.setSound b).dirty = s.dirty := rfl
@[simp] theorem setSound_draws (b : Byte) : (s.setSound b).draws = s.draws := rfl
@[simp] theorem setSound_schedule (b : Byte) : (s.setSound b).schedule = s.schedule := rfl

/-! ### `setKeys` -/

@[simp] theorem setKeys_v (k : BitVec 16) : (s.setKeys k).v = s.v := rfl
@[simp] theorem setKeys_i (k : BitVec 16) : (s.setKeys k).i = s.i := rfl
@[simp] theorem setKeys_ip (k : BitVec 16) : (s.setKeys k).ip = s.ip := rfl
@[simp] theorem setKeys_sp (k : BitVec 16) : (s.setKeys k).sp = s.sp := rfl
@[simp] theorem setKeys_stack (k : BitVec 16) : (s.setKeys k).stack = s.stack := rfl
@[simp] theorem setKeys_dt (k : BitVec 16) : (s.setKeys k).dt = s.dt := rfl
@[simp] theorem setKeys_st (k : BitVec 16) : (s.setKeys k).st = s.st := rfl
@[simp] theorem setKeys_keys (k : BitVec 16) : (s.setKeys k).keys = k := rfl
@[simp] theorem setKeys_wait (k : BitVec 16) : (s.setKeys k).wait = s.wait := rfl
@[simp] theorem setKeys_waitReg (k : BitVec 16) : (s.setKeys k).waitReg = s.waitReg := rfl
@[simp] theorem setKeys_mem (k : BitVec 16) : (s.setKeys k).mem = s.mem := rfl
@[simp] theorem setKeys_disp (k : BitVec 16) : (s.setKeys k).disp = s.disp := rfl
@[simp] theorem setKeys_dirty (k : BitVec 16) : (s.setKeys k).dirty = s.dirty := rfl
@[simp] theorem setKeys_draws (k : BitVec 16) : (s.setKeys k).draws = s.draws := rfl
@[simp] theorem setKeys_schedule (k : BitVec 16) : (s.setKeys k).schedule = s.schedule := rfl

/-! ### `beginWait` -/

@[simp] theorem beginWait_v (x : RegIndex) : (s.beginWait x).v = s.v := rfl
@[simp] theorem beginWait_i (x : RegIndex) : (s.beginWait x).i = s.i := rfl
@[simp] theorem beginWait_ip (x : RegIndex) : (s.beginWait x).ip = s.ip := rfl
@[simp] theorem beginWait_sp (x : RegIndex) : (s.beginWait x).sp = s.sp := rfl
@[simp] theorem beginWait_stack (x : RegIndex) : (s.beginWait x).stack = s.stack := rfl
@[simp] theorem beginWait_dt (x : RegIndex) : (s.beginWait x).dt = s.dt := rfl
@[simp] theorem beginWait_st (x : RegIndex) : (s.beginWait x).st = s.st := rfl
@[simp] theorem beginWait_keys (x : RegIndex) : (s.beginWait x).keys = s.keys := rfl
@[simp] theorem beginWait_wait (x : RegIndex) : (s.beginWait x).wait = true := rfl
@[simp] theorem beginWait_waitReg (x : RegIndex) : (s.beginWait x).waitReg = x := rfl
@[simp] theorem beginWait_mem (x : RegIndex) : (s.beginWait x).mem = s.mem := rfl
@[simp] theorem beginWait_disp (x : RegIndex) : (s.beginWait x).disp = s.disp := rfl
@[simp] theorem beginWait_dirty (x : RegIndex) : (s.beginWait x).dirty = s.dirty := rfl
@[simp] theorem beginWait_draws (x : RegIndex) : (s.beginWait x).draws = s.draws := rfl
@[simp] theorem beginWait_schedule (x : RegIndex) : (s.beginWait x).schedule = s.schedule := rfl

/-! ### `endWait` -/

@[simp] theorem endWait_v : (s.endWait).v = s.v := rfl
@[simp] theorem endWait_i : (s.endWait).i = s.i := rfl
@[simp] theorem endWait_ip : (s.endWait).ip = s.ip := rfl
@[simp] theorem endWait_sp : (s.endWait).sp = s.sp := rfl
@[simp] theorem endWait_stack : (s.endWait).stack = s.stack := rfl
@[simp] theorem endWait_dt : (s.endWait).dt = s.dt := rfl
@[simp] theorem endWait_st : (s.endWait).st = s.st := rfl
@[simp] theorem endWait_keys : (s.endWait).keys = s.keys := rfl
@[simp] theorem endWait_wait : (s.endWait).wait = false := rfl
@[simp] theorem endWait_waitReg : (s.endWait).waitReg = s.waitReg := rfl
@[simp] theorem endWait_mem : (s.endWait).mem = s.mem := rfl
@[simp] theorem endWait_disp : (s.endWait).disp = s.disp := rfl
@[simp] theorem endWait_dirty : (s.endWait).dirty = s.dirty := rfl
@[simp] theorem endWait_draws : (s.endWait).draws = s.draws := rfl
@[simp] theorem endWait_schedule : (s.endWait).schedule = s.schedule := rfl

/-! ### `consumeDraw` -/

@[simp] theorem consumeDraw_v : (s.consumeDraw).v = s.v := rfl
@[simp] theorem consumeDraw_i : (s.consumeDraw).i = s.i := rfl
@[simp] theorem consumeDraw_ip : (s.consumeDraw).ip = s.ip := rfl
@[simp] theorem consumeDraw_sp : (s.consumeDraw).sp = s.sp := rfl
@[simp] theorem consumeDraw_stack : (s.consumeDraw).stack = s.stack := rfl
@[simp] theorem consumeDraw_dt : (s.consumeDraw).dt = s.dt := rfl
@[simp] theorem consumeDraw_st : (s.consumeDraw).st = s.st := rfl
@[simp] theorem consumeDraw_keys : (s.consumeDraw).keys = s.keys := rfl
@[simp] theorem consumeDraw_wait : (s.consumeDraw).wait = s.wait := rfl
@[simp] theorem consumeDraw_waitReg : (s.consumeDraw).waitReg = s.waitReg := rfl
@[simp] theorem consumeDraw_mem : (s.consumeDraw).mem = s.mem := rfl
@[simp] theorem consumeDraw_disp : (s.consumeDraw).disp = s.disp := rfl
@[simp] theorem consumeDraw_dirty : (s.consumeDraw).dirty = s.dirty := rfl
@[simp] theorem consumeDraw_draws : (s.consumeDraw).draws = s.draws + 1 := rfl
@[simp] theorem consumeDraw_schedule : (s.consumeDraw).schedule = s.schedule := rfl

/-! ### `setDisplay` -/

@[simp] theorem setDisplay_v (d : Display) : (s.setDisplay d).v = s.v := rfl
@[simp] theorem setDisplay_i (d : Display) : (s.setDisplay d).i = s.i := rfl
@[simp] theorem setDisplay_ip (d : Display) : (s.setDisplay d).ip = s.ip := rfl
@[simp] theorem setDisplay_sp (d : Display) : (s.setDisplay d).sp = s.sp := rfl
@[simp] theorem setDisplay_stack (d : Display) : (s.setDisplay d).stack = s.stack := rfl
@[simp] theorem setDisplay_dt (d : Display) : (s.setDisplay d).dt = s.dt := rfl
@[simp] theorem setDisplay_st (d : Display) : (s.setDisplay d).st = s.st := rfl
@[simp] theorem setDisplay_keys (d : Display) : (s.setDisplay d).keys = s.keys := rfl
@[simp] theorem setDisplay_wait (d : Display) : (s.setDisplay d).wait = s.wait := rfl
@[simp] theorem setDisplay_waitReg (d : Display) : (s.setDisplay d).waitReg = s.waitReg := rfl
@[simp] theorem setDisplay_mem (d : Display) : (s.setDisplay d).mem = s.mem := rfl
@[simp] theorem setDisplay_disp (d : Display) : (s.setDisplay d).disp = d := rfl
@[simp] theorem setDisplay_dirty (d : Display) : (s.setDisplay d).dirty = true := rfl
@[simp] theorem setDisplay_draws (d : Display) : (s.setDisplay d).draws = s.draws := rfl
@[simp] theorem setDisplay_schedule (d : Display) : (s.setDisplay d).schedule = s.schedule := rfl

/-! ### `clearDirty` -/

@[simp] theorem clearDirty_v : (s.clearDirty).v = s.v := rfl
@[simp] theorem clearDirty_i : (s.clearDirty).i = s.i := rfl
@[simp] theorem clearDirty_ip : (s.clearDirty).ip = s.ip := rfl
@[simp] theorem clearDirty_sp : (s.clearDirty).sp = s.sp := rfl
@[simp] theorem clearDirty_stack : (s.clearDirty).stack = s.stack := rfl
@[simp] theorem clearDirty_dt : (s.clearDirty).dt = s.dt := rfl
@[simp] theorem clearDirty_st : (s.clearDirty).st = s.st := rfl
@[simp] theorem clearDirty_keys : (s.clearDirty).keys = s.keys := rfl
@[simp] theorem clearDirty_wait : (s.clearDirty).wait = s.wait := rfl
@[simp] theorem clearDirty_waitReg : (s.clearDirty).waitReg = s.waitReg := rfl
@[simp] theorem clearDirty_mem : (s.clearDirty).mem = s.mem := rfl
@[simp] theorem clearDirty_disp : (s.clearDirty).disp = s.disp := rfl
@[simp] theorem clearDirty_dirty : (s.clearDirty).dirty = false := rfl
@[simp] theorem clearDirty_draws : (s.clearDirty).draws = s.draws := rfl
@[simp] theorem clearDirty_schedule : (s.clearDirty).schedule = s.schedule := rfl

/-! ### `turnTaken` -/

@[simp] theorem turnTaken_v : (s.turnTaken).v = s.v := rfl
@[simp] theorem turnTaken_i : (s.turnTaken).i = s.i := rfl
@[simp] theorem turnTaken_ip : (s.turnTaken).ip = s.ip := rfl
@[simp] theorem turnTaken_sp : (s.turnTaken).sp = s.sp := rfl
@[simp] theorem turnTaken_stack : (s.turnTaken).stack = s.stack := rfl
@[simp] theorem turnTaken_dt : (s.turnTaken).dt = s.dt := rfl
@[simp] theorem turnTaken_st : (s.turnTaken).st = s.st := rfl
@[simp] theorem turnTaken_keys : (s.turnTaken).keys = s.keys := rfl
@[simp] theorem turnTaken_wait : (s.turnTaken).wait = s.wait := rfl
@[simp] theorem turnTaken_waitReg : (s.turnTaken).waitReg = s.waitReg := rfl
@[simp] theorem turnTaken_mem : (s.turnTaken).mem = s.mem := rfl
@[simp] theorem turnTaken_disp : (s.turnTaken).disp = s.disp := rfl
@[simp] theorem turnTaken_dirty : (s.turnTaken).dirty = s.dirty := rfl
@[simp] theorem turnTaken_draws : (s.turnTaken).draws = s.draws := rfl
@[simp] theorem turnTaken_schedule : (s.turnTaken).schedule = s.schedule.tail := rfl

/-! ### The register and byte reads see only `v` and `mem` -/

@[simp] theorem memWrite_reg (a : Word) (b : Byte) (r : RegIndex) : (s.memWrite a b).reg r = s.reg r := rfl
@[simp] theorem setReg_memRead (x : RegIndex) (b : Byte) (c : Word) : (s.setReg x b).memRead c = s.memRead c := rfl
@[simp] theorem setFlag_memRead (f : Bool) (c : Word) : (s.setFlag f).memRead c = s.memRead c := rfl
@[simp] theorem setIndex_reg (a : Word) (r : RegIndex) : (s.setIndex a).reg r = s.reg r := rfl
@[simp] theorem setIndex_memRead (a : Word) (c : Word) : (s.setIndex a).memRead c = s.memRead c := rfl
@[simp] theorem setIp_reg (a : Word) (r : RegIndex) : (s.setIp a).reg r = s.reg r := rfl
@[simp] theorem setIp_memRead (a : Word) (c : Word) : (s.setIp a).memRead c = s.memRead c := rfl
@[simp] theorem advance_reg (n : Nat) (r : RegIndex) : (s.advance n).reg r = s.reg r := rfl
@[simp] theorem advance_memRead (n : Nat) (c : Word) : (s.advance n).memRead c = s.memRead c := rfl
@[simp] theorem setDelay_reg (b : Byte) (r : RegIndex) : (s.setDelay b).reg r = s.reg r := rfl
@[simp] theorem setDelay_memRead (b : Byte) (c : Word) : (s.setDelay b).memRead c = s.memRead c := rfl
@[simp] theorem setSound_reg (b : Byte) (r : RegIndex) : (s.setSound b).reg r = s.reg r := rfl
@[simp] theorem setSound_memRead (b : Byte) (c : Word) : (s.setSound b).memRead c = s.memRead c := rfl
@[simp] theorem setKeys_reg (k : BitVec 16) (r : RegIndex) : (s.setKeys k).reg r = s.reg r := rfl
@[simp] theorem setKeys_memRead (k : BitVec 16) (c : Word) : (s.setKeys k).memRead c = s.memRead c := rfl
@[simp] theorem beginWait_reg (x : RegIndex) (r : RegIndex) : (s.beginWait x).reg r = s.reg r := rfl
@[simp] theorem beginWait_memRead (x : RegIndex) (c : Word) : (s.beginWait x).memRead c = s.memRead c := rfl
@[simp] theorem endWait_reg (r : RegIndex) : (s.endWait).reg r = s.reg r := rfl
@[simp] theorem endWait_memRead (c : Word) : (s.endWait).memRead c = s.memRead c := rfl
@[simp] theorem consumeDraw_reg (r : RegIndex) : (s.consumeDraw).reg r = s.reg r := rfl
@[simp] theorem consumeDraw_memRead (c : Word) : (s.consumeDraw).memRead c = s.memRead c := rfl
@[simp] theorem setDisplay_reg (d : Display) (r : RegIndex) : (s.setDisplay d).reg r = s.reg r := rfl
@[simp] theorem setDisplay_memRead (d : Display) (c : Word) : (s.setDisplay d).memRead c = s.memRead c := rfl
@[simp] theorem clearDirty_reg (r : RegIndex) : (s.clearDirty).reg r = s.reg r := rfl
@[simp] theorem clearDirty_memRead (c : Word) : (s.clearDirty).memRead c = s.memRead c := rfl
@[simp] theorem turnTaken_reg (r : RegIndex) : (s.turnTaken).reg r = s.reg r := rfl
@[simp] theorem turnTaken_memRead (c : Word) : (s.turnTaken).memRead c = s.memRead c := rfl

end Sys2Proof.Machine
end

