-- ==== Sys2Proof/Laws/Memory.lean ====
section
/-! SUPPORT. The laws of memory: a byte read after a write, every other byte kept, the canonical form kept by every
operation, and canonical memories that read alike are equal data. -/

namespace Sys2Proof.Machine

/-! ## The list -/

/-- An address below everything listed reads as unlisted. -/
theorem lookup_below (m : Memory) (a lo : Nat) (h : Memory.wfFrom lo m = true) (ha : a < lo) :
    Memory.lookup m a = Memory.unlisted a := by
  induction m generalizing lo with
  | nil => rfl
  | cons e m ih =>
    obtain ⟨k, c⟩ := e
    simp only [Memory.wfFrom, Bool.and_eq_true, decide_eq_true_eq] at h
    have hne : k ≠ a := by omega
    simp only [Memory.lookup, hne, if_false]
    exact ih (k + 1) h.2 (by omega)

theorem lookup_put_same (m : Memory) (a : Nat) (b : Byte) (lo : Nat) (h : Memory.wfFrom lo m = true) :
    Memory.lookup (Memory.put m a b) a = b := by
  induction m generalizing lo with
  | nil =>
    unfold Memory.put
    split <;> simp_all [Memory.lookup]
  | cons e m ih =>
    obtain ⟨k, c⟩ := e
    simp only [Memory.wfFrom, Bool.and_eq_true, decide_eq_true_eq] at h
    unfold Memory.put
    split
    · rename_i hk
      simp only [Memory.lookup, Nat.ne_of_lt hk, if_false]
      exact ih (k + 1) h.2
    · split
      · rename_i hk
        subst hk
        split
        · rename_i hb
          subst hb
          exact lookup_below m k (k + 1) h.2 (Nat.lt_succ_self k)
        · simp [Memory.lookup]
      · split
        · rename_i hb
          subst hb
          have hne : k ≠ a := by omega
          simp only [Memory.lookup, hne, if_false]
          exact lookup_below m a (k + 1) h.2 (by omega)
        · simp [Memory.lookup]

theorem lookup_put_other (m : Memory) (a c : Nat) (b : Byte) (hne : c ≠ a) :
    Memory.lookup (Memory.put m a b) c = Memory.lookup m c := by
  induction m with
  | nil =>
    unfold Memory.put
    split
    · rfl
    · simp [Memory.lookup, Ne.symm hne]
  | cons e m ih =>
    obtain ⟨k, d⟩ := e
    unfold Memory.put
    split
    · simp only [Memory.lookup, ih]
    · split
      · rename_i hk
        subst hk
        split <;> simp [Memory.lookup, Ne.symm hne]
      · split <;> simp [Memory.lookup, Ne.symm hne]

theorem wfFrom_mono (m : Memory) {lo hi : Nat} (hle : lo ≤ hi) (h : Memory.wfFrom hi m = true) :
    Memory.wfFrom lo m = true := by
  cases m with
  | nil => rfl
  | cons e m =>
    obtain ⟨k, c⟩ := e
    simp only [Memory.wfFrom, Bool.and_eq_true, decide_eq_true_eq] at h ⊢
    exact ⟨⟨⟨by omega, h.1.1.2⟩, h.1.2⟩, h.2⟩

theorem wfFrom_put (m : Memory) (lo a : Nat) (b : Byte) (hlo : lo ≤ a) (ha : a < Config.memSize)
    (h : Memory.wfFrom lo m = true) : Memory.wfFrom lo (Memory.put m a b) = true := by
  induction m generalizing lo with
  | nil =>
    unfold Memory.put
    split
    · rfl
    · simp_all [Memory.wfFrom]
  | cons e m ih =>
    obtain ⟨k, c⟩ := e
    simp only [Memory.wfFrom, Bool.and_eq_true, decide_eq_true_eq] at h
    unfold Memory.put
    split
    · rename_i hk
      simp only [Memory.wfFrom, Bool.and_eq_true, decide_eq_true_eq]
      exact ⟨h.1, ih (k + 1) (by omega) h.2⟩
    · split
      · rename_i hk
        subst hk
        split
        · exact wfFrom_mono m (by omega) h.2
        · simp_all [Memory.wfFrom]
      · rename_i h1 h2
        split
        · simp_all [Memory.wfFrom]
        · have hk : a + 1 ≤ k := by omega
          simp_all [Memory.wfFrom]

/-! ## Canonical memories are determined by their reads -/

theorem wfFrom_ext (m n : Memory) (lo : Nat) (hm : Memory.wfFrom lo m = true) (hn : Memory.wfFrom lo n = true)
    (h : ∀ a, Memory.lookup m a = Memory.lookup n a) : m = n := by
  induction m generalizing n lo with
  | nil =>
    cases n with
    | nil => rfl
    | cons e n =>
      obtain ⟨k, c⟩ := e
      simp only [Memory.wfFrom, Bool.and_eq_true, decide_eq_true_eq, bne_iff_ne, ne_eq] at hn
      have := h k
      simp only [Memory.lookup, if_true] at this
      exact absurd this.symm hn.1.2
  | cons e m ih =>
    obtain ⟨k, c⟩ := e
    simp only [Memory.wfFrom, Bool.and_eq_true, decide_eq_true_eq, bne_iff_ne, ne_eq] at hm
    cases n with
    | nil =>
      have := h k
      simp only [Memory.lookup, if_true] at this
      exact absurd this hm.1.2
    | cons e' n =>
      obtain ⟨k', c'⟩ := e'
      simp only [Memory.wfFrom, Bool.and_eq_true, decide_eq_true_eq, bne_iff_ne, ne_eq] at hn
      have hk : k = k' := by
        rcases Nat.lt_trichotomy k k' with hlt | heq | hgt
        · have := h k
          rw [lookup_below ((k', c') :: n) k k' (by simp [Memory.wfFrom, hn]) hlt] at this
          simp only [Memory.lookup, if_true] at this
          exact absurd this hm.1.2
        · exact heq
        · have := h k'
          rw [lookup_below ((k, c) :: m) k' k (by simp [Memory.wfFrom, hm]) hgt] at this
          simp only [Memory.lookup, if_true] at this
          exact absurd this.symm hn.1.2
      subst hk
      have hc : c = c' := by simpa [Memory.lookup] using h k
      subst hc
      have : m = n := by
        refine ih n (k + 1) hm.2 hn.2 fun a => ?_
        by_cases ha : k = a
        · subst ha
          rw [lookup_below m k (k + 1) hm.2 (Nat.lt_succ_self k), lookup_below n k (k + 1) hn.2 (Nat.lt_succ_self k)]
        · simpa [Memory.lookup, ha] using h a
      rw [this]

/-- Equal memories are equal data. -/
theorem memory_ext (m n : Memory) (hm : Memory.wf m = true) (hn : Memory.wf n = true)
    (h : ∀ a, Memory.lookup m a = Memory.lookup n a) : m = n := wfFrom_ext m n 0 hm hn h

/-! ## The bounded accesses -/

theorem wf_write (m : Memory) (a : Word) (b : Byte) (h : Memory.wf m = true) :
    Memory.wf (Memory.write m a b) = true := by
  unfold Memory.write
  split
  · exact wfFrom_put m 0 a.toNat b (Nat.zero_le _) ‹_› h
  · exact h

theorem wf_load (m : Memory) (offset : Nat) (bytes : List Byte) (h : Memory.wf m = true) :
    Memory.wf (Memory.load m offset bytes) = true := by
  induction bytes generalizing m offset with
  | nil => exact h
  | cons b bs ih =>
    unfold Memory.load
    apply ih
    split
    · exact wfFrom_put m 0 offset b (Nat.zero_le _) ‹_› h
    · exact h

theorem read_write_same (m : Memory) (a : Word) (b : Byte) (h : Memory.wf m = true) (ha : a.toNat < Config.memSize) :
    Memory.read (Memory.write m a b) a = b := by
  simp only [Memory.read, Memory.write, ha, if_true]
  exact lookup_put_same m a.toNat b 0 h

theorem read_write_other (m : Memory) (a c : Word) (b : Byte) (hne : c ≠ a) :
    Memory.read (Memory.write m a b) c = Memory.read m c := by
  have : c.toNat ≠ a.toNat := fun hc => hne (BitVec.eq_of_toNat_eq hc)
  unfold Memory.read Memory.write
  split
  · split
    · exact lookup_put_other m a.toNat c.toNat b this
    · rfl
  · rfl

theorem read_beyond (m : Memory) (a : Word) (ha : Config.memSize ≤ a.toNat) : Memory.read m a = 0 := by
  simp [Memory.read, Nat.not_lt.mpr ha]

theorem memRead_memWrite_same (s : State) (a : Word) (b : Byte) (h : Memory.wf s.mem = true)
    (ha : a.toNat < Config.memSize) : (s.memWrite a b).memRead a = b := read_write_same s.mem a b h ha

theorem memRead_memWrite_other (s : State) (a c : Word) (b : Byte) (hne : c ≠ a) :
    (s.memWrite a b).memRead c = s.memRead c := read_write_other s.mem a c b hne

/-- What `loadProgram` leaves at an address: the image's byte, or what stood there. -/
theorem lookup_load (m : Memory) (offset : Nat) (bytes : List Byte) (h : Memory.wf m = true) (a : Nat)
    (ha : a < Config.memSize) :
    Memory.lookup (Memory.load m offset bytes) a =
      if offset ≤ a ∧ a < offset + bytes.length then bytes.getD (a - offset) 0 else Memory.lookup m a := by
  induction bytes generalizing m offset with
  | nil =>
    rw [if_neg (by simp only [List.length_nil, Nat.add_zero]; omega)]
    rfl
  | cons b bs ih =>
    have hwf : Memory.wf (if offset < Config.memSize then Memory.put m offset b else m) = true := by
      split
      · exact wfFrom_put m 0 offset b (Nat.zero_le _) ‹_› h
      · exact h
    simp only [Memory.load, List.length_cons, ih _ (offset + 1) hwf]
    by_cases h1 : offset + 1 ≤ a ∧ a < offset + 1 + bs.length
    · rw [if_pos h1, if_pos (by omega)]
      have : a - offset = (a - (offset + 1)) + 1 := by omega
      rw [this, List.getD_cons_succ]
    · rw [if_neg h1]
      by_cases h2 : offset = a
      · subst h2
        rw [if_pos ha, if_pos (by omega), lookup_put_same m offset b 0 h]
        simp
      · have h3 : ¬ (offset ≤ a ∧ a < offset + (bs.length + 1)) := by omega
        rw [if_neg h3]
        split
        · exact lookup_put_other m offset a b (Ne.symm h2)
        · rfl

end Sys2Proof.Machine
end

