-- ==== Sys2Proof/Laws/Ops.lean ====
section
/-! SUPPORT. One lemma per shared operation that says everything it can do: registers, the ALU's writes, the call stack, the
display, block transfers. -/

namespace Sys2Proof.Machine

/-! ## Registers -/

@[simp] theorem setReg_reg_same (s : State) (x : RegIndex) (b : Byte) : (s.setReg x b).reg x = b := by
  simp [State.reg, State.setReg]

theorem setReg_reg_other (s : State) (x r : RegIndex) (b : Byte) (h : r ≠ x) : (s.setReg x b).reg r = s.reg r := by
  have : x.toNat ≠ r.toNat := fun hc => h (BitVec.eq_of_toNat_eq hc.symm)
  simp [State.reg, State.setReg, Vector.getElem_set_ne, this]

theorem setReg_reg (s : State) (x r : RegIndex) (b : Byte) :
    (s.setReg x b).reg r = if r = x then b else s.reg r := by
  split
  · subst_vars; simp
  · exact setReg_reg_other s x r b ‹_›

theorem setFlag_reg (s : State) (f : Bool) (r : RegIndex) :
    (s.setFlag f).reg r = if r = vf then flagByte f else s.reg r := setReg_reg s vf r (flagByte f)

/-- Two states with the same registers hold the same register file. -/
theorem regs_ext {s t : State} (h : ∀ r, s.reg r = t.reg r) : s.v = t.v := by
  apply Vector.ext
  intro j hj
  have := h (BitVec.ofNat 4 j)
  simpa [State.reg, Nat.mod_eq_of_lt hj] using this

/-! ## The ALU's writes -/

/-- What a register holds after an ALU write: the flag in VF where there is one, else the result in V[x] (R172). -/
theorem aluWrite_reg (s : State) (op : AluOp) (x r : RegIndex) (b : Byte) :
    (s.aluWrite op x b).reg r =
      match (alu op (s.reg x) b).flag with
      | none => if r = x then (alu op (s.reg x) b).result else s.reg r
      | some f => if r = vf then flagByte f else if r = x then (alu op (s.reg x) b).result else s.reg r := by
  unfold State.aluWrite
  cases h : (alu op (s.reg x) b).flag <;> simp [h, setReg_reg, setFlag_reg]

/-- An ALU write changes the register file and nothing else. -/
theorem aluWrite_frame (s : State) (op : AluOp) (x : RegIndex) (b : Byte) :
    s.aluWrite op x b = { s with v := (s.aluWrite op x b).v } := by
  unfold State.aluWrite
  cases h : (alu op (s.reg x) b).flag <;> simp [h, State.setReg, State.setFlag]

theorem aluWriteNoFlag_reg (s : State) (op : AluOp) (x r : RegIndex) (b : Byte) :
    (s.aluWriteNoFlag op x b).reg r = if r = x then (alu op (s.reg x) b).result else s.reg r :=
  setReg_reg s x r _

theorem aluWriteNoFlag_frame (s : State) (op : AluOp) (x : RegIndex) (b : Byte) :
    s.aluWriteNoFlag op x b = { s with v := (s.aluWriteNoFlag op x b).v } := rfl

/-! ## The call stack -/

theorem push_ok {s t : State} {a : Word} (h : s.push a = .ok t) :
    ∃ hs : s.sp.toNat < 16, t = { s with stack := s.stack.set s.sp.toNat a hs, sp := s.sp + 1 } := by
  unfold State.push at h
  split at h
  · exact ⟨‹_›, by simpa using h.symm⟩
  · cases h

theorem push_error {s : State} {a : Word} {f : Fault} (h : s.push a = .error f) :
    f = .stackOverflow ∧ 16 ≤ s.sp.toNat := by
  unfold State.push at h
  split at h
  · cases h
  · exact ⟨by simpa using h.symm, Nat.le_of_not_lt ‹_›⟩

theorem push_of_lt (s : State) (a : Word) (h : s.sp.toNat < 16) :
    s.push a = .ok { s with stack := s.stack.set s.sp.toNat a h, sp := s.sp + 1 } := by
  simp [State.push, h]

theorem pop_ok {s t : State} {a : Word} (h : s.pop = .ok (a, t)) :
    s.sp ≠ 0 ∧ s.stack[s.sp.toNat - 1]? = some a ∧ t = { s with sp := s.sp - 1 } := by
  unfold State.pop at h
  split at h
  · cases h
  · split at h
    · rename_i h0 h1
      simp only [Except.ok.injEq, Prod.mk.injEq] at h
      exact ⟨h0, by rw [← h.1]; exact Vector.getElem?_eq_getElem h1, h.2.symm⟩
    · cases h

theorem pop_error {s : State} {f : Fault} (h : s.pop = .error f) :
    (f = .stackUnderflow ∧ s.sp = 0) ∨ (f = .stackPointerOutOfRange ∧ 16 < s.sp.toNat) := by
  unfold State.pop at h
  split at h
  · exact .inl ⟨by simpa using h.symm, ‹_›⟩
  · split at h
    · cases h
    · exact .inr ⟨by simpa using h.symm, by omega⟩

theorem pop_of_le (s : State) (h0 : 0 < s.sp.toNat) (h : s.sp.toNat ≤ 16) :
    ∃ a, s.pop = .ok (a, { s with sp := s.sp - 1 }) ∧ s.stack[s.sp.toNat - 1]? = some a := by
  have hne : s.sp ≠ 0 := by rintro hc; simp [hc] at h0
  have hlt : s.sp.toNat - 1 < 16 := by omega
  exact ⟨s.stack[s.sp.toNat - 1], by unfold State.pop; rw [if_neg hne, dif_pos hlt], Vector.getElem?_eq_getElem hlt⟩

/-! ## The display -/

theorem fin_ofNat_val (n k : Nat) [NeZero n] : (Fin.ofNat n k).val = k % n := rfl

theorem flip_pixel (d : Display) (px qx : Fin 64) (py qy : Fin 32) :
    (d.flip px py).pixel qx qy = (d.pixel qx qy ^^ (decide (qx = px) && decide (qy = py))) := by
  unfold Display.flip Display.pixel
  rw [Vector.getElem_set]
  by_cases hy : py.val = qy.val
  · have hy' : qy = py := Fin.ext hy.symm
    subst hy'
    simp only [if_true, BitVec.getLsbD_xor, BitVec.getLsbD_twoPow]
    congr 1
    by_cases hx : qx = px
    · subst hx; simp
    · have : px.val ≠ qx.val := fun hc => hx (Fin.ext hc.symm)
      simp [hx, this]
  · have hy' : qy ≠ py := fun hc => hy (by rw [hc])
    simp [hy, hy']

theorem blank_pixel (px : Fin 64) (py : Fin 32) : Display.blank.pixel px py = false := by
  simp [Display.pixel, Display.blank]

/-- A pixel after one more column: `X` and `Y` say that the column falls on it, `A` that an earlier one did. -/
theorem xor_column (p : Bool) (C Y A X B : Prop) [Decidable X] [Decidable Y] (hB : B) (h : X → ¬ A)
    (hp : p = true ↔ (C ↔ ¬ (Y ∧ A))) : (p ^^ (decide X && decide Y)) = true ↔ (C ↔ ¬ (Y ∧ (A ∨ (B ∧ X)))) := by
  cases p <;> by_cases C <;> by_cases Y <;> by_cases A <;> by_cases X <;> simp_all

/-- A pixel after one more row: `Q` and `B` say that the row falls on it, `A` that an earlier one did. -/
theorem xor_row (P A Q B : Prop) (h : Q → ¬ A) : ((P ↔ ¬ A) ↔ ¬ (Q ∧ B)) ↔ (P ↔ ¬ (A ∨ (Q ∧ B))) := by
  by_cases P <;> by_cases A <;> by_cases Q <;> by_cases B <;> simp_all

/-- Drawing the first `k` columns of a row: the pixels its set bits fall on are flipped, and the collision records whether
one of them was set before. -/
theorem drawColumns_spec (c : Canvas) (b : Byte) (vx : Nat) (py : Fin 32) (k : Nat) (hk : k ≤ 8) :
    (∀ qx qy, (c.drawColumns b vx py k).disp.pixel qx qy = true ↔
      (c.disp.pixel qx qy = true ↔ ¬ (qy = py ∧ ∃ col < k, b.getLsbD (7 - col) = true ∧ qx.val = (vx + col) % 64))) ∧
    ((c.drawColumns b vx py k).collision = true ↔
      c.collision = true ∨ ∃ qx, c.disp.pixel qx py = true ∧
        ∃ col < k, b.getLsbD (7 - col) = true ∧ qx.val = (vx + col) % 64) := by
  induction k with
  | zero => simp [Canvas.drawColumns]
  | succ k ih =>
    obtain ⟨ihp, ihc⟩ := ih (by omega)
    have hfresh : ¬ ∃ col < k, b.getLsbD (7 - col) = true ∧ (Fin.ofNat 64 (vx + k)).val = (vx + col) % 64 := by
      rintro ⟨col, hcol, -, he⟩
      rw [fin_ofNat_val] at he
      omega
    have hsplit : ∀ qx : Fin 64, (∃ col < k + 1, b.getLsbD (7 - col) = true ∧ qx.val = (vx + col) % 64) ↔
        ((∃ col < k, b.getLsbD (7 - col) = true ∧ qx.val = (vx + col) % 64) ∨
          (b.getLsbD (7 - k) = true ∧ qx = Fin.ofNat 64 (vx + k))) := by
      intro qx
      constructor
      · rintro ⟨col, hcol, hb, he⟩
        rcases Nat.lt_succ_iff_lt_or_eq.mp hcol with h | h
        · exact .inl ⟨col, h, hb, he⟩
        · subst h; exact .inr ⟨hb, Fin.ext he⟩
      · rintro (⟨col, hcol, hb, he⟩ | ⟨hb, he⟩)
        · exact ⟨col, by omega, hb, he⟩
        · exact ⟨k, by omega, hb, by rw [he]; rfl⟩
    unfold Canvas.drawColumns
    by_cases hb : b.getLsbD (7 - k) = true
    · simp only [hb, if_true, Canvas.hit]
      refine ⟨fun qx qy => ?_, ?_⟩
      · rw [flip_pixel, hsplit qx]
        exact xor_column _ _ _ _ _ _ hb (fun hx => hx ▸ hfresh) (ihp qx qy)
      · have hp := ihp (Fin.ofNat 64 (vx + k)) py
        simp only [hfresh, and_false, not_false_eq_true, iff_true] at hp
        simp only [Bool.or_eq_true, ihc, hp]
        constructor
        · rintro ((h | ⟨qx, hq, h⟩) | h)
          · exact .inl h
          · exact .inr ⟨qx, hq, (hsplit qx).mpr (.inl h)⟩
          · exact .inr ⟨_, h, (hsplit _).mpr (.inr ⟨hb, rfl⟩)⟩
        · rintro (h | ⟨qx, hq, h⟩)
          · exact .inl (.inl h)
          · rcases (hsplit qx).mp h with h | ⟨-, h⟩
            · exact .inl (.inr ⟨qx, hq, h⟩)
            · subst h; exact .inr hq
    · simp only [hb, if_false, Bool.false_eq_true]
      refine ⟨fun qx qy => ?_, ?_⟩
      · rw [ihp qx qy, hsplit qx]; simp [hb]
      · rw [ihc]; simp only [hsplit, hb, Bool.false_eq_true, false_and, or_false]

/-- Drawing the first `n` rows of a sprite (at most 32, so that no row wraps onto another). -/
theorem drawRows_spec (c : Canvas) (m : Memory) (i : Word) (vx vy n : Nat) (hn : n ≤ 32) :
    (∀ qx qy, (c.drawRows m i vx vy n).disp.pixel qx qy = true ↔
      (c.disp.pixel qx qy = true ↔ ¬ ∃ row < n, ∃ col < 8,
        (Memory.read m (i + BitVec.ofNat 16 row)).getLsbD (7 - col) = true ∧
          qx.val = (vx + col) % 64 ∧ qy.val = (vy + row) % 32)) ∧
    ((c.drawRows m i vx vy n).collision = true ↔
      c.collision = true ∨ ∃ qx qy, c.disp.pixel qx qy = true ∧ ∃ row < n, ∃ col < 8,
        (Memory.read m (i + BitVec.ofNat 16 row)).getLsbD (7 - col) = true ∧
          qx.val = (vx + col) % 64 ∧ qy.val = (vy + row) % 32) := by
  induction n with
  | zero => simp [Canvas.drawRows]
  | succ n ih =>
    obtain ⟨ihp, ihc⟩ := ih (by omega)
    have hrow := drawColumns_spec (c.drawRows m i vx vy n) (Memory.read m (i + BitVec.ofNat 16 n)) vx
      (Fin.ofNat 32 (vy + n)) 8 (Nat.le_refl 8)
    have hsplit : ∀ (qx : Fin 64) (qy : Fin 32), (∃ row < n + 1, ∃ col < 8,
        (Memory.read m (i + BitVec.ofNat 16 row)).getLsbD (7 - col) = true ∧
          qx.val = (vx + col) % 64 ∧ qy.val = (vy + row) % 32) ↔
        ((∃ row < n, ∃ col < 8, (Memory.read m (i + BitVec.ofNat 16 row)).getLsbD (7 - col) = true ∧
          qx.val = (vx + col) % 64 ∧ qy.val = (vy + row) % 32) ∨
          (qy = Fin.ofNat 32 (vy + n) ∧ ∃ col < 8,
            (Memory.read m (i + BitVec.ofNat 16 n)).getLsbD (7 - col) = true ∧ qx.val = (vx + col) % 64)) := by
      intro qx qy
      constructor
      · rintro ⟨row, hr, col, hcol, hb, hx, hy⟩
        rcases Nat.lt_succ_iff_lt_or_eq.mp hr with h | h
        · exact .inl ⟨row, h, col, hcol, hb, hx, hy⟩
        · subst h; exact .inr ⟨Fin.ext hy, col, hcol, hb, hx⟩
      · rintro (⟨row, hr, h⟩ | ⟨hy, col, hcol, hb, hx⟩)
        · exact ⟨row, by omega, h⟩
        · exact ⟨n, by omega, col, hcol, hb, hx, by rw [hy]; rfl⟩
    have hfresh : ∀ (qx : Fin 64) (qy : Fin 32), qy = Fin.ofNat 32 (vy + n) → ¬ ∃ row < n, ∃ col < 8,
        (Memory.read m (i + BitVec.ofNat 16 row)).getLsbD (7 - col) = true ∧
          qx.val = (vx + col) % 64 ∧ qy.val = (vy + row) % 32 := by
      rintro qx qy hq ⟨row, hr, -, -, -, -, hy⟩
      rw [hq, fin_ofNat_val] at hy
      omega
    unfold Canvas.drawRows
    refine ⟨fun qx qy => ?_, ?_⟩
    · rw [hrow.1 qx qy, hsplit qx qy, ihp qx qy]
      exact xor_row _ _ _ _ (hfresh qx qy)
    · rw [hrow.2, ihc]
      simp only [hsplit]
      constructor
      · rintro ((h | ⟨qx, qy, hp, h⟩) | ⟨qx, hp, h⟩)
        · exact .inl h
        · exact .inr ⟨qx, qy, hp, .inl h⟩
        · refine .inr ⟨qx, _, ?_, .inr ⟨rfl, h⟩⟩
          exact ((ihp qx _).mp hp).mpr (hfresh qx _ rfl)
      · rintro (h | ⟨qx, qy, hp, h | ⟨hq, h⟩⟩)
        · exact .inl (.inl h)
        · exact .inl (.inr ⟨qx, qy, hp, h⟩)
        · subst hq
          exact .inr ⟨qx, (ihp qx _).mpr ⟨fun _ => hfresh qx _ rfl, fun _ => hp⟩, h⟩

/-! ## Block transfers -/

/-- A block store changes memory and I only; I ends `n` above its start. -/
theorem storeRegs_frame (s : State) (n : Nat) :
    s.storeRegs n = { s with mem := (s.storeRegs n).mem, i := s.i + BitVec.ofNat 16 n } := by
  induction n with
  | zero => simp [State.storeRegs]
  | succ n ih =>
    unfold State.storeRegs
    rw [ih]
    simp [State.memWrite, State.setIndex, BitVec.ofNat_add, BitVec.add_assoc]

theorem storeRegs_wf (s : State) (n : Nat) (h : Memory.wf s.mem = true) : Memory.wf (s.storeRegs n).mem = true := by
  induction n with
  | zero => exact h
  | succ n ih =>
    unfold State.storeRegs
    simpa using wf_write _ _ _ ih

theorem storeRegs_reg (s : State) (n : Nat) (r : RegIndex) : (s.storeRegs n).reg r = s.reg r := by
  rw [storeRegs_frame]; rfl

theorem storeRegs_i (s : State) (n : Nat) : (s.storeRegs n).i = s.i + BitVec.ofNat 16 n := by
  rw [storeRegs_frame]

/-- Two offsets below 65536 from one address are different addresses. -/
theorem offset_ne (a : Word) {j k : Nat} (hj : j < 65536) (hk : k < 65536) (h : j ≠ k) :
    a + BitVec.ofNat 16 j ≠ a + BitVec.ofNat 16 k := by
  intro hc
  apply h
  have := congrArg BitVec.toNat (cancel hc)
  simpa [Nat.mod_eq_of_lt hj, Nat.mod_eq_of_lt hk] using this
where
  cancel {a b c : Word} (h : a + b = a + c) : b = c := by
    have := congrArg (fun z => z - a) h
    simpa [BitVec.add_comm a, BitVec.add_sub_cancel] using this

/-- A block store puts register `j` at `I + j` where that is memory. -/
theorem storeRegs_stored (s : State) (n : Nat) (hn : n ≤ 16) (h : Memory.wf s.mem = true) (j : Nat) (hj : j < n)
    (ha : (s.i + BitVec.ofNat 16 j).toNat < Config.memSize) :
    (s.storeRegs n).memRead (s.i + BitVec.ofNat 16 j) = s.reg (BitVec.ofNat 4 j) := by
  induction n with
  | zero => omega
  | succ n ih =>
    unfold State.storeRegs
    simp only [setIndex_memRead, storeRegs_i, storeRegs_reg]
    by_cases hjn : j = n
    · subst hjn
      exact memRead_memWrite_same _ _ _ (storeRegs_wf s j h) ha
    · rw [memRead_memWrite_other _ _ _ _ (offset_ne s.i (by omega) (by omega) hjn)]
      exact ih (by omega) (by omega)

/-- A block store leaves every address that is no `I + j` alone. -/
theorem storeRegs_kept (s : State) (n : Nat) (a : Word) (h : ∀ j < n, a ≠ s.i + BitVec.ofNat 16 j) :
    (s.storeRegs n).memRead a = s.memRead a := by
  induction n with
  | zero => rfl
  | succ n ih =>
    unfold State.storeRegs
    simp only [setIndex_memRead, storeRegs_i, storeRegs_reg]
    rw [memRead_memWrite_other _ _ _ _ (h n (Nat.lt_succ_self n))]
    exact ih fun j hj => h j (by omega)

/-- A block load changes the register file and I only; I ends `n` above its start. -/
theorem loadRegs_frame (s : State) (n : Nat) :
    s.loadRegs n = { s with v := (s.loadRegs n).v, i := s.i + BitVec.ofNat 16 n } := by
  induction n with
  | zero => simp [State.loadRegs]
  | succ n ih =>
    unfold State.loadRegs
    rw [ih]
    simp [State.setReg, State.setIndex, BitVec.ofNat_add, BitVec.add_assoc]

theorem loadRegs_memRead (s : State) (n : Nat) (a : Word) : (s.loadRegs n).memRead a = s.memRead a := by
  rw [loadRegs_frame]; rfl

theorem loadRegs_i (s : State) (n : Nat) : (s.loadRegs n).i = s.i + BitVec.ofNat 16 n := by
  rw [loadRegs_frame]

/-- What a register holds after a block load of `n` registers. -/
theorem loadRegs_reg (s : State) (n : Nat) (hn : n ≤ 16) (r : RegIndex) :
    (s.loadRegs n).reg r = if r.toNat < n then s.memRead (s.i + BitVec.ofNat 16 r.toNat) else s.reg r := by
  induction n with
  | zero => simp [State.loadRegs]
  | succ n ih =>
    unfold State.loadRegs
    simp only [setIndex_reg, setReg_reg, loadRegs_memRead, loadRegs_i, ih (by omega)]
    by_cases hr : r = BitVec.ofNat 4 n
    · subst hr
      have : n % 16 = n := Nat.mod_eq_of_lt (by omega)
      simp [this]
    · have : r.toNat ≠ n := fun hc => hr (by rw [← hc]; simp)
      rw [if_neg hr]
      by_cases hlt : r.toNat < n
      · rw [if_pos hlt, if_pos (by omega)]
      · rw [if_neg hlt, if_neg (by omega)]

/-! ## The end of an instruction -/

theorem done_eq (n : Nat) (s : State) : done n s = .next (s.advance n) := rfl

theorem skipIf_eq (c : Bool) (s : State) : skipIf c s = .next (s.advance (if c then 4 else 2)) := rfl

end Sys2Proof.Machine
end

