-- ==== Sys2Proof/Laws/PerInstr.lean ====
section
/-! SUPPORT. Statements for all instructions, one lemma per constructor. -/

namespace Sys2Proof.Laws.DescriptorWf

/-- The descriptor of an instruction is shape consistent and every field is in its range (R94, R257). -/
def Statement (i : Instr) : Prop := i.wellFormed = true

theorem destination (k : Kind) (x : RegIndex) (h : k.shape = .destination) :
    (Descriptor.mk k k.shape (some x.toNat) none none none none).wellFormed = true := by
  simp [Descriptor.wellFormed, Descriptor.shapeOk, Descriptor.fieldsOk, Descriptor.operandsInRange,
    Descriptor.addressInRange, h, x.isLt]

theorem destinationByte (k : Kind) (x : RegIndex) (kk : Byte) (h : k.shape = .destinationByte) :
    (Descriptor.mk k k.shape (some x.toNat) none (some kk.toNat) none none).wellFormed = true := by
  simp [Descriptor.wellFormed, Descriptor.shapeOk, Descriptor.fieldsOk, Descriptor.operandsInRange,
    Descriptor.addressInRange, h, x.isLt, kk.isLt]

theorem destinationSource (k : Kind) (x y : RegIndex) (h : k.shape = .destinationSource) :
    (Descriptor.mk k k.shape (some x.toNat) (some y.toNat) none none none).wellFormed = true := by
  simp [Descriptor.wellFormed, Descriptor.shapeOk, Descriptor.fieldsOk, Descriptor.operandsInRange,
    Descriptor.addressInRange, h, x.isLt, y.isLt]

theorem address (k : Kind) (nnn : Address) (h : k.shape = .address) :
    (Descriptor.mk k k.shape none none none none (some nnn.toNat)).wellFormed = true := by
  simp [Descriptor.wellFormed, Descriptor.shapeOk, Descriptor.fieldsOk, Descriptor.operandsInRange,
    Descriptor.addressInRange, h, nnn.isLt]

theorem cls : Statement (.cls) := rfl
theorem ret : Statement (.ret) := rfl
theorem jp (nnn : Address) : Statement (.jp nnn) := address _ nnn rfl
theorem call (nnn : Address) : Statement (.call nnn) := address _ nnn rfl
theorem seImm (x : RegIndex) (kk : Byte) : Statement (.seImm x kk) := destinationByte _ x kk rfl
theorem sneImm (x : RegIndex) (kk : Byte) : Statement (.sneImm x kk) := destinationByte _ x kk rfl
theorem seReg (x : RegIndex) (y : RegIndex) : Statement (.seReg x y) := destinationSource _ x y rfl
theorem ldImm (x : RegIndex) (kk : Byte) : Statement (.ldImm x kk) := destinationByte _ x kk rfl
theorem addImm (x : RegIndex) (kk : Byte) : Statement (.addImm x kk) := destinationByte _ x kk rfl
theorem ldReg (x : RegIndex) (y : RegIndex) : Statement (.ldReg x y) := destinationSource _ x y rfl
theorem or (x : RegIndex) (y : RegIndex) : Statement (.or x y) := destinationSource _ x y rfl
theorem and (x : RegIndex) (y : RegIndex) : Statement (.and x y) := destinationSource _ x y rfl
theorem xor (x : RegIndex) (y : RegIndex) : Statement (.xor x y) := destinationSource _ x y rfl
theorem addReg (x : RegIndex) (y : RegIndex) : Statement (.addReg x y) := destinationSource _ x y rfl
theorem sub (x : RegIndex) (y : RegIndex) : Statement (.sub x y) := destinationSource _ x y rfl
theorem shr (x : RegIndex) (y : RegIndex) : Statement (.shr x y) := destinationSource _ x y rfl
theorem subn (x : RegIndex) (y : RegIndex) : Statement (.subn x y) := destinationSource _ x y rfl
theorem shl (x : RegIndex) (y : RegIndex) : Statement (.shl x y) := destinationSource _ x y rfl
theorem sneReg (x : RegIndex) (y : RegIndex) : Statement (.sneReg x y) := destinationSource _ x y rfl
theorem ldI (nnn : Address) : Statement (.ldI nnn) := address _ nnn rfl
theorem jpV0 (nnn : Address) : Statement (.jpV0 nnn) := address _ nnn rfl
theorem rnd (x : RegIndex) (kk : Byte) : Statement (.rnd x kk) := destinationByte _ x kk rfl
theorem drw (x : RegIndex) (y : RegIndex) (n : BitVec 4) : Statement (.drw x y n) := by
  simp [Statement, Instr.wellFormed, Instr.descriptor, Instr.kind, Kind.shape, Descriptor.wellFormed, Descriptor.shapeOk,
    Descriptor.fieldsOk, Descriptor.operandsInRange, Descriptor.addressInRange, x.isLt, y.isLt, n.isLt]
theorem skp (x : RegIndex) : Statement (.skp x) := destination _ x rfl
theorem sknp (x : RegIndex) : Statement (.sknp x) := destination _ x rfl
theorem ldVxDt (x : RegIndex) : Statement (.ldVxDt x) := destination _ x rfl
theorem ldVxK (x : RegIndex) : Statement (.ldVxK x) := destination _ x rfl
theorem ldDtVx (x : RegIndex) : Statement (.ldDtVx x) := destination _ x rfl
theorem ldStVx (x : RegIndex) : Statement (.ldStVx x) := destination _ x rfl
theorem addIVx (x : RegIndex) : Statement (.addIVx x) := destination _ x rfl
theorem ldFVx (x : RegIndex) : Statement (.ldFVx x) := destination _ x rfl
theorem ldBVx (x : RegIndex) : Statement (.ldBVx x) := destination _ x rfl
theorem stBlock (x : RegIndex) : Statement (.stBlock x) := destination _ x rfl
theorem ldBlock (x : RegIndex) : Statement (.ldBlock x) := destination _ x rfl
theorem unknown : Statement (.unknown) := rfl

end Sys2Proof.Laws.DescriptorWf
end

