-- ==== Sys2Proof/Laws/Step.lean ====
section
/-! SUPPORT. What one step can do, said once: the core runs the instruction at IP, or the host acts; and what a host action
can do. -/

namespace Sys2Proof.Machine

@[simp] theorem turnTaken_fetchWord (s : State) (a : Word) : s.turnTaken.fetchWord a = s.fetchWord a := rfl

theorem turnTaken_of_nil (s : State) (h : s.schedule = []) : s.turnTaken = s := by
  cases s
  simp_all [State.turnTaken]

theorem coreStep_of_wait (s : State) (h : s.wait = true) : coreStep s = .fault .keyWaitPending := by
  simp [coreStep, h]

theorem coreStep_of_run (s : State) (h : s.wait = false) : coreStep s = exec s.nextInstr s := by
  simp [coreStep, h, State.nextInstr]

theorem step_of_coreTurn (s : State) (h : s.coreTurn) : step s = coreStep s.turnTaken := by
  rcases h with h | ⟨rest, h⟩
  · rw [turnTaken_of_nil s h]
    simp [step, takeTurn, h]
  · simp [step, takeTurn, State.turnTaken, h]

theorem step_of_hostTurn (s : State) (a : HostAction) (rest : List Turn) (h : s.schedule = .host a :: rest) :
    step s = hostStep a s.turnTaken := by
  simp [step, takeTurn, State.turnTaken, h]

theorem coreTurn_or_host (s : State) : s.coreTurn ∨ ∃ a rest, s.schedule = .host a :: rest := by
  unfold State.coreTurn
  cases s.schedule with
  | nil => simp
  | cons t rest => cases t <;> simp

/-- A step that answers a next state: the core's, running the instruction at IP, or the host's. -/
theorem step_next_cases {s t : State} (h : step s = .next t) :
    (s.coreTurn ∧ s.wait = false ∧ exec s.nextInstr s.turnTaken = .next t) ∨
      ∃ a rest, s.schedule = .host a :: rest ∧ hostStep a s.turnTaken = .next t := by
  rcases coreTurn_or_host s with hc | ⟨a, rest, hs⟩
  · rw [step_of_coreTurn s hc] at h
    cases hw : s.wait with
    | true => rw [coreStep_of_wait s.turnTaken hw] at h; cases h
    | false => exact .inl ⟨hc, rfl, by rw [coreStep_of_run s.turnTaken hw] at h; exact h⟩
  · exact .inr ⟨a, rest, hs, by rw [← step_of_hostTurn s a rest hs]; exact h⟩

/-- A host action that answers a next state. -/
theorem hostStep_next_cases {a : HostAction} {s t : State} (h : hostStep a s = .next t) :
    (∃ bytes offset, a = .loadProgram bytes offset ∧ t = s.loadProgram bytes offset) ∨
    (∃ k, a = .keyDown k ∧ k < 16 ∧ t = s.keyDown (BitVec.ofNat 4 k)) ∨
    (∃ k, a = .keyUp k ∧ k < 16 ∧ t = s.keyUp (BitVec.ofNat 4 k)) ∨
    (a = .tickDT ∧ t = s.tickDT) ∨ (a = .readDisplay ∧ t = s.clearDirty) := by
  cases a with
  | loadProgram bytes offset => exact .inl ⟨bytes, offset, rfl, by simpa [hostStep] using h.symm⟩
  | keyDown k =>
    simp only [hostStep, Config.numKeys] at h
    by_cases hk : k < 16
    · exact .inr (.inl ⟨k, rfl, hk, by simpa [hk] using h.symm⟩)
    · simp [hk] at h
  | keyUp k =>
    simp only [hostStep, Config.numKeys] at h
    by_cases hk : k < 16
    · exact .inr (.inr (.inl ⟨k, rfl, hk, by simpa [hk] using h.symm⟩))
    · simp [hk] at h
  | tickDT => exact .inr (.inr (.inr (.inl ⟨rfl, by simpa [hostStep] using h.symm⟩)))
  | readDisplay => exact .inr (.inr (.inr (.inr ⟨rfl, by simpa [hostStep] using h.symm⟩)))

/-- CALL with room on the stack: the pushed state with IP at the target. -/
theorem execCall_of_lt (nnn : Address) (s : State) (h : s.sp.toNat < 16) :
    exec (.call nnn) s = .next
      { s with stack := s.stack.set s.sp.toNat (s.ip + 2) h, sp := s.sp + 1, ip := addressOperand nnn } := by
  simp only [exec, execCall, push_of_lt s (s.ip + 2) h]
  rfl

/-- CALL on a full stack: U1. -/
theorem execCall_of_ge (nnn : Address) (s : State) (h : 16 ≤ s.sp.toNat) :
    exec (.call nnn) s = .fault .stackOverflow := by
  have : ¬ s.sp.toNat < 16 := by omega
  simp [exec, execCall, State.push, this]

/-- RET with a return address on the stack: the popped state with IP at that address. -/
theorem execRet_of_le (s : State) (h0 : 0 < s.sp.toNat) (h : s.sp.toNat ≤ 16) :
    ∃ a, s.stack[s.sp.toNat - 1]? = some a ∧ exec .ret s = .next { s with sp := s.sp - 1, ip := a } := by
  obtain ⟨a, hp, hs⟩ := pop_of_le s h0 h
  refine ⟨a, hs, ?_⟩
  simp only [exec, execRet, hp]
  rfl

/-- RET on an empty stack: U2. -/
theorem execRet_of_zero (s : State) (h : s.sp.toNat = 0) : exec .ret s = .fault .stackUnderflow := by
  have : s.sp = 0 := BitVec.eq_of_toNat_eq h
  simp [exec, execRet, State.pop, this]

/-- RET with SP above 16: the model's own fault (log 9). -/
theorem execRet_of_gt (s : State) (h : 16 < s.sp.toNat) : exec .ret s = .fault .stackPointerOutOfRange := by
  have h0 : s.sp ≠ 0 := by rintro hc; simp [hc] at h
  have h1 : ¬ s.sp.toNat - 1 < 16 := by omega
  unfold exec execRet State.pop
  rw [if_neg h0, dif_neg h1]

/-- `keyDown` in a state that waits for no key sets a latch bit and no more. -/
theorem keyDown_of_run (s : State) (k : BitVec 4) (h : s.wait = false) :
    s.keyDown k = s.setKeys (s.keys ||| BitVec.twoPow 16 k.toNat) := by
  simp [State.keyDown, h]

/-- `keyDown` in a waiting state also delivers the key code and ends the wait. -/
theorem keyDown_of_wait (s : State) (k : BitVec 4) (h : s.wait = true) :
    s.keyDown k = ((s.setKeys (s.keys ||| BitVec.twoPow 16 k.toNat)).setReg s.waitReg (keyCode k)).endWait := by
  simp [State.keyDown, h]

theorem keyDown_mem (s : State) (k : BitVec 4) : (s.keyDown k).mem = s.mem := by
  cases h : s.wait <;> simp [State.keyDown, h]

theorem keyDown_sp (s : State) (k : BitVec 4) : (s.keyDown k).sp = s.sp := by
  cases h : s.wait <;> simp [State.keyDown, h]

theorem tickDT_mem (s : State) : s.tickDT.mem = s.mem := by unfold State.tickDT; split <;> rfl

theorem tickDT_sp (s : State) : s.tickDT.sp = s.sp := by unfold State.tickDT; split <;> rfl

end Sys2Proof.Machine
end

