-- ==== Sys2Proof/Tests/Slice0.lean ====
section
/-! SUPPORT. Tests of the model, each from the spec's text or tables (`95_test_vectors.md` ids DV-..., E..., P...), and for
every obligation with hypotheses a concrete state and operands that meet them. -/

namespace Sys2Proof.Tests

set_option Elab.async false

open Sys2Proof Sys2Proof.Machine

/-! ## WellFormed: each check refuses an ill-formed descriptor (R92, R94) -/

theorem test_wf_accepts : (Descriptor.mk .drw .destinationSourceNibble (some 15) (some 15) none (some 15) none).wellFormed
    = true ∧ (Descriptor.mk .jp .address none none none none (some 4095)).wellFormed = true ∧
    (Descriptor.mk .ldImm .destinationByte (some 0) none (some 255) none none).wellFormed = true := by decide
theorem test_wf_shape : (Descriptor.mk .jp .destination (some 1) none none none none).wellFormed = false := by decide
theorem test_wf_missing_field : (Descriptor.mk .ldImm .destinationByte (some 1) none none none none).wellFormed = false := by
  decide
theorem test_wf_extra_field : (Descriptor.mk .cls .noOperand none none none none (some 1)).wellFormed = false ∧
    (Descriptor.mk .skp .destination (some 1) (some 2) none none none).wellFormed = false := by decide
theorem test_wf_dst_range : (Descriptor.mk .skp .destination (some 16) none none none none).wellFormed = false := by decide
theorem test_wf_src_range : (Descriptor.mk .seReg .destinationSource (some 1) (some 16) none none none).wellFormed
    = false := by decide
theorem test_wf_nibble_range :
    (Descriptor.mk .drw .destinationSourceNibble (some 1) (some 2) none (some 16) none).wellFormed = false := by decide
theorem test_wf_byte_range : (Descriptor.mk .rnd .destinationByte (some 1) none (some 256) none none).wellFormed
    = false := by decide
theorem test_wf_address_range : (Descriptor.mk .call .address none none none none (some 4096)).wellFormed = false := by
  decide
theorem test_wf_unknown_not_assemblable : Instr.unknown.assemblable = false ∧ Instr.unknown.wellFormed = true := by decide

/-! ## Decoding: every constructor, by words of section 2.1, the first of each family bit by bit -/

theorem test_decode_family_0 : decode 0b0000_0000_1110_0000 = .cls ∧ decode 0x00EE = .ret ∧ decode 0x0000 = .unknown ∧
    decode 0x00E1 = .unknown ∧ decode 0x01E0 = .unknown ∧ decode 0x0FFF = .unknown := by decide
theorem test_decode_addresses : decode 0b0001_1010_1011_1100 = .jp 0xABC ∧ decode 0b0010_1101_1110_1111 = .call 0xDEF ∧
    decode 0b1010_0001_0010_0011 = .ldI 0x123 ∧ decode 0b1011_0100_0101_0110 = .jpV0 0x456 := by decide
theorem test_decode_bytes : decode 0b0011_1010_0111_1111 = .seImm 0xA 0x7F ∧
    decode 0b0100_1011_1000_0000 = .sneImm 0xB 0x80 ∧ decode 0b0110_0001_0000_0100 = .ldImm 1 4 ∧
    decode 0b0111_1111_0000_0001 = .addImm 0xF 1 ∧ decode 0b1100_0111_0000_1111 = .rnd 7 0x0F := by decide
theorem test_decode_families_5_9 : decode 0b0101_1100_1101_0000 = .seReg 0xC 0xD ∧ decode 0x5CD7 = .seReg 0xC 0xD ∧
    decode 0b1001_1100_1101_0000 = .sneReg 0xC 0xD ∧ decode 0x9CDF = .sneReg 0xC 0xD := by decide
theorem test_decode_family_8 : decode 0b1000_1010_1011_0000 = .ldReg 0xA 0xB ∧ decode 0x8AB1 = .or 0xA 0xB ∧
    decode 0x8AB2 = .and 0xA 0xB ∧ decode 0x8AB3 = .xor 0xA 0xB ∧ decode 0x8AB4 = .addReg 0xA 0xB ∧
    decode 0x8AB5 = .sub 0xA 0xB ∧ decode 0x8AB6 = .shr 0xA 0xB ∧ decode 0x8AB7 = .subn 0xA 0xB ∧
    decode 0x8ABE = .shl 0xA 0xB := by decide
theorem test_decode_family_8_unknown : [0x8AB8#16, 0x8AB9#16, 0x8ABA#16, 0x8ABB#16, 0x8ABC#16, 0x8ABD#16, 0x8ABF#16].all
    (decode · == .unknown) = true := by decide
theorem test_decode_family_D : decode 0b1101_0001_0010_1111 = .drw 1 2 15 ∧ decode 0xD120 = .drw 1 2 0 := by decide
theorem test_decode_family_E : decode 0b1110_0101_1001_1110 = .skp 5 ∧ decode 0b1110_0101_1010_0001 = .sknp 5 ∧
    [0xE59F#16, 0xE5A0#16, 0xE500#16, 0xE5FF#16].all (decode · == .unknown) = true := by decide
theorem test_decode_family_F : decode 0b1111_0110_0000_0111 = .ldVxDt 6 ∧ decode 0xF60A = .ldVxK 6 ∧
    decode 0xF615 = .ldDtVx 6 ∧ decode 0xF618 = .ldStVx 6 ∧ decode 0xF61E = .addIVx 6 ∧ decode 0xF629 = .ldFVx 6 ∧
    decode 0xF633 = .ldBVx 6 ∧ decode 0xF655 = .stBlock 6 ∧ decode 0xF665 = .ldBlock 6 := by decide
theorem test_decode_family_F_unknown : [0xF600#16, 0xF608#16, 0xF61F#16, 0xF630#16, 0xF675#16, 0xF687#16, 0xF6D5#16,
    0xF6E5#16, 0xFFFF#16].all (decode · == .unknown) = true := by decide

/-- E3: "decoding `[0x00,0xE0]` yields kind Clear-Screen", big-endian; fewer than two bytes give no word. -/
theorem test_decode_bytes_E3 : decodeBytes [0x00, 0xE0, 0x77] = .ok (.cls, [0x77]) ∧
    decodeBytes [0x00] = .error .truncated := ⟨rfl, rfl⟩

/-! ## Encoding (section 2.2, E4) -/

theorem test_encode : encodeBytes .cls = some [0x00, 0xE0] ∧ encodeBytes (.jp 0x20E) = some [0x12, 0x0E] ∧
    encodeBytes (.seReg 1 2) = some [0x51, 0x20] ∧ encodeBytes (.drw 1 2 5) = some [0xD1, 0x25] ∧
    encodeBytes (.sknp 0xA) = some [0xEA, 0xA1] ∧ encodeBytes (.stBlock 0xF) = some [0xFF, 0x55] ∧
    encodeBytes .unknown = none := by decide
theorem test_encode_E4 : [Instr.ldImm 1 4, .ldImm 0 10, .addReg 1 0].flatMap (fun i => (encodeBytes i).getD [])
    = [0x61, 0x04, 0x60, 0x0A, 0x81, 0x04] := by decide
theorem test_encode_descriptor :
    encodeDescriptor ⟨.jp, .address, none, none, none, none, some 0x1234⟩ = .ok 0x1234 ∧
    encodeDescriptor ⟨.unknown, .noOperand, none, none, none, none, none⟩ = .error .noEncoding ∧
    encodeDescriptor ⟨.jp, .destination, some 1, none, none, none, none⟩ = .error .shapeMismatch ∧
    encodeDescriptor ⟨.skp, .destination, none, none, none, none, none⟩ = .error .fieldMismatch ∧
    encodeDescriptor ⟨.skp, .destination, some 16, none, none, none, none⟩ = .error .operandOutOfRange :=
  ⟨rfl, rfl, rfl, rfl, rfl⟩

/-! ## One step (section 3): the word at IP = 0x0200, the start state beyond reset -/

/-- Reset, the word placed, then what the vector says of the start state. -/
def start (w : Nat) (f : State → State := id) : State := f (State.reset.withFetchWord 16 w)

/-- What a view of the state shows after one step, none where the step stops. -/
def after {α : Type} (s : State) (view : State → α) : Option α :=
  match step s with
  | .next t => some (view t)
  | _ => none

/-- DV-43-2 -/
theorem test_cls : after (start 0x00E0 fun s => { s.setFlag true with disp := s.disp.flip 5 3, dirty := false })
    (fun t => (t.disp == Display.blank, t.dirty, t.reg 15, t.ip)) = some (true, true, 1, 0x202) := by decide +kernel
/-- DV-40-6, DV-40-7 -/
theorem test_ret : after (start 0x00EE fun s => { s with sp := 1, stack := s.stack.set 0 0x204 })
    (fun t => (t.sp, t.ip)) = some (0, 0x204) ∧ step (start 0x00EE) = .fault .stackUnderflow := ⟨by decide +kernel, rfl⟩
/-- DV-40-1, DV-40-2 -/
theorem test_jp : after (start 0x1228) (·.ip) = some 0x228 ∧ after (start 0x1200) id = some (start 0x1200) := by
  decide +kernel
/-- DV-40-4 -/
theorem test_jpV0 : after (start 0xBFFF (·.setReg 0 0xFF)) (·.ip) = some 0x10FE := by decide +kernel
/-- DV-40-8, DV-40-9 -/
theorem test_call : after (start 0x2300 fun s => { s with sp := 15 }) (fun t => (t.stack[15], t.sp, t.ip))
    = some (0x202, 16, 0x300) ∧
    step (start 0x2300 fun s => { s with sp := 16 }) = .fault .stackOverflow := ⟨by decide +kernel, rfl⟩
/-- DV-40-10 to DV-40-13 -/
theorem test_fetch_edges :
    after { State.reset with ip := 0xFFF, mem := [(0xFFF, 0x12)] } (·.ip) = some 0x200 ∧
    after { State.reset with ip := 0xFFFF, mem := [(0, 0xE0)], dirty := false } (fun t => (t.dirty, t.ip))
      = some (true, 1) ∧
    after { State.reset with ip := 0xFFFE } (·.ip) = some 0 ∧
    after { State.reset with ip := 0x1000 } (·.ip) = some 0x1002 := by decide +kernel

/-- DV-41-1, DV-41-2, DV-41-11 -/
theorem test_seImm : after (start 0x332A (·.setReg 3 0x2A)) (·.ip) = some 0x204 ∧
    after (start 0x332A (·.setReg 3 0x2B)) (·.ip) = some 0x202 ∧
    after (start 0x3F01 (·.setReg 15 1)) (·.ip) = some 0x204 := by decide +kernel
/-- DV-41-3, DV-41-4 -/
theorem test_sneImm : after (start 0x432A (·.setReg 3 0x2A)) (·.ip) = some 0x202 ∧
    after (start 0x432A) (·.ip) = some 0x204 := by decide +kernel
/-- DV-41-6, DV-41-7 -/
theorem test_seReg : after (start 0x512F fun s => (s.setReg 1 7).setReg 2 7) (·.ip) = some 0x204 ∧
    after (start 0x5120 fun s => (s.setReg 1 7).setReg 2 8) (·.ip) = some 0x202 := by decide +kernel
/-- DV-41-9, DV-41-10 -/
theorem test_sneReg : after (start 0x9120 fun s => (s.setReg 1 7).setReg 2 8) (·.ip) = some 0x204 ∧
    after (start 0x9120 fun s => (s.setReg 1 7).setReg 2 7) (·.ip) = some 0x202 := by decide +kernel

/-- DV-42-1 -/
theorem test_ldImm : after (start 0x6104) (fun t => (t.reg 1, t.ip)) = some (4, 0x202) := by decide +kernel
/-- DV-42-2 -/
theorem test_ldReg : after (start 0x8120 (·.setReg 2 0x7F)) (·.reg 1) = some 0x7F := by decide +kernel
/-- DV-42-3 -/
theorem test_addImm : after (start 0x710A fun s => (s.setReg 1 0xFA).setReg 15 0x55) (fun t => (t.reg 1, t.reg 15))
    = some (4, 0x55) := by decide +kernel
/-- DV-42-6 (E7), DV-42-9 -/
theorem test_addReg : after (start 0x8124 fun s => (s.setReg 1 0xFA).setReg 2 0x0A) (fun t => (t.reg 1, t.reg 15))
    = some (4, 1) ∧
    after (start 0x8124 fun s => (s.setReg 1 0xF0).setReg 2 0x0F) (fun t => (t.reg 1, t.reg 15)) = some (0xFF, 0) := by
  decide +kernel
/-- DV-42-12, DV-42-13: VF as destination and as source -/
theorem test_addReg_vf : after (start 0x8F14 fun s => (s.setReg 15 0xC8).setReg 1 0x64) (·.reg 15) = some 1 ∧
    after (start 0x81F4 fun s => (s.setReg 1 0xFF).setReg 15 1) (fun t => (t.reg 1, t.reg 15)) = some (0, 1) := by
  decide +kernel
/-- DV-42-14 -/
theorem test_or : after (start 0x8121 fun s => ((s.setReg 1 0xF0).setReg 2 0x0F).setReg 15 0x55)
    (fun t => (t.reg 1, t.reg 15)) = some (0xFF, 0x55) := by decide +kernel
/-- DV-42-15 -/
theorem test_and : after (start 0x8122 fun s => (s.setReg 1 0xF3).setReg 2 0x3F) (·.reg 1) = some 0x33 := by decide +kernel
/-- DV-42-16 -/
theorem test_xor : after (start 0x8123 fun s => (s.setReg 1 0xFF).setReg 2 0x0F) (·.reg 1) = some 0xF0 := by decide +kernel
/-- DV-42-18, DV-42-20 -/
theorem test_sub : after (start 0x8125 fun s => (s.setReg 1 0x0A).setReg 2 3) (fun t => (t.reg 1, t.reg 15))
    = some (7, 1) ∧
    after (start 0x8125 fun s => (s.setReg 1 5).setReg 2 7) (fun t => (t.reg 1, t.reg 15)) = some (0xFE, 0) := by
  decide +kernel
/-- DV-42-19, DV-42-21: equal operands, VF as destination -/
theorem test_sub_equal : after (start 0x8125 fun s => (s.setReg 1 7).setReg 2 7) (fun t => (t.reg 1, t.reg 15))
    = some (0, 0) ∧ after (start 0x8F15 fun s => (s.setReg 15 9).setReg 1 3) (·.reg 15) = some 1 := by decide +kernel
/-- DV-42-22, DV-42-23 -/
theorem test_subn : after (start 0x8127 fun s => (s.setReg 1 3).setReg 2 0x0A) (fun t => (t.reg 1, t.reg 15))
    = some (7, 1) ∧
    after (start 0x8127 fun s => (s.setReg 1 0x0A).setReg 2 3) (fun t => (t.reg 1, t.reg 15)) = some (0xF9, 0) := by
  decide +kernel
/-- DV-42-25, DV-42-29: the flag does not depend on the shift amount -/
theorem test_shr_flag : after (start 0x8126 (·.setReg 1 0x97)) (·.reg 15) = some 1 ∧
    after (start 0x8F16 (·.setReg 15 0x81)) (·.reg 15) = some 1 := ⟨rfl, rfl⟩
/-- DV-42-25: the result, by the amount -/
theorem test_shr_result : after (start 0x8126 (·.setReg 1 0x97)) (·.reg 1) = some (0x97#8 >>> Config.shiftAmount) ∧
    0x97#8 >>> 1 = 0x4B#8 ∧ 0x97#8 >>> 4 = 0x09#8 := ⟨rfl, rfl, rfl⟩
/-- DV-42-28, DV-42-30 -/
theorem test_shl_flag : after (start 0x812E (·.setReg 1 0x17)) (·.reg 15) = some 0 ∧
    after (start 0x8F1E (·.setReg 15 0x81)) (·.reg 15) = some 1 := ⟨rfl, rfl⟩
/-- DV-42-27 -/
theorem test_shl_result : after (start 0x812E (·.setReg 1 0x97)) (·.reg 1) = some (0x97#8 <<< Config.shiftAmount) ∧
    0x97#8 <<< 1 = 0x2E#8 ∧ 0x97#8 <<< 4 = 0x70#8 := ⟨rfl, rfl, rfl⟩
/-- DV-42-31: the masked draw -/
theorem test_rnd : after (start 0xC10F) (fun t => (t.reg 1, t.draws)) = some (Config.randomByte 0 &&& 0x0F, 1) := rfl

/-- E8, DV-43-1, first draw -/
theorem test_drw : after (start 0xD011 fun s => ({ s with i := 0x300 }).memWrite 0x300 0xFF)
    (fun t => (t.disp[0], t.reg 15, t.dirty)) = some (0xFF, 0, true) := by decide +kernel
/-- DV-43-3, DV-43-4, DV-43-8: bit 7 is leftmost, wrapping, old VF as a coordinate -/
theorem test_drw_wrap : after (start 0xD121 fun s => ((({ s with i := 0x300 }).memWrite 0x300 0x80).setReg 1 200).setReg 2 33)
    (fun t => t.disp == Display.blank.flip 8 1) = some true ∧
    after (start 0xD121 fun s => (({ s with i := 0x300 }).memWrite 0x300 0xFF).setReg 1 60) (fun t => t.disp[0])
      = some 0xF00000000000000F ∧
    after (start 0xDFF1 fun s => (({ s with i := 0x300 }).memWrite 0x300 0x80).setReg 15 5)
      (fun t => (t.disp == Display.blank.flip 5 5, t.reg 15)) = some (true, 0) := by decide +kernel

/-- DV-44-2, DV-44-5, DV-44-6 -/
theorem test_skp : after (start 0xE19E fun s => { s.setReg 1 4 with keys := 0x20 }) (·.ip) = some 0x202 ∧
    after (start 0xE19E fun s => { s.setReg 1 15 with keys := 0x8000 }) (·.ip) = some 0x204 ∧
    after (start 0xE19E fun s => { s.setReg 1 16 with keys := 0xFFFF }) (·.ip) = some 0x202 := by decide +kernel
/-- DV-44-3, DV-44-7 -/
theorem test_sknp : after (start 0xE1A1 fun s => { s.setReg 1 5 with keys := 0x20 }) (·.ip) = some 0x202 ∧
    after (start 0xE1A1 fun s => { s.setReg 1 16 with keys := 0xFFFF }) (·.ip) = some 0x204 := by decide +kernel
/-- DV-44-8 -/
theorem test_ldVxDt : after (start 0xF107 (·.setDelay 0x3C)) (·.reg 1) = some 0x3C := by decide +kernel
/-- DV-44-9 -/
theorem test_ldDtVx : after (start 0xF115 (·.setReg 1 0x3C)) (fun t => (t.dt, t.st)) = some (0x3C, 0) := by decide +kernel
/-- DV-44-10 -/
theorem test_ldStVx : after (start 0xF118 (·.setReg 1 0x10)) (fun t => (t.st, t.dt)) = some (0x10, 0) := by decide +kernel
/-- DV-44-11, DV-44-17 -/
theorem test_ldVxK : after (start 0xF30A) (fun t => (t.wait, t.waitReg, t.ip, t.reg 3)) = some (true, 3, 0x202, 0) ∧
    step (start 0xF30A (·.beginWait 3)) = .fault .keyWaitPending := ⟨by decide +kernel, rfl⟩

/-- DV-45-1 -/
theorem test_ldI : after (start 0xA2F0) (·.i) = some 0x2F0 := by decide +kernel
/-- DV-45-2, DV-45-3 -/
theorem test_addIVx : after (start 0xF11E fun s => { (s.setReg 1 5).setReg 15 0x55 with i := 0xFFE })
    (fun t => (t.i, t.reg 15)) = some (0x1003, 0x55) ∧
    after (start 0xF11E fun s => { s.setReg 1 2 with i := 0xFFFF }) (·.i) = some 1 := by decide +kernel
/-- DV-45-5, DV-45-6 -/
theorem test_ldFVx : after (start 0xF129 (·.setReg 1 0x3A)) (·.i) = some 0x32 ∧
    after (start 0xF129 (·.setReg 1 0x0F)) (·.i) = some 0x4B := by decide +kernel
/-- DV-45-7 -/
theorem test_ldBVx : after (start 0xF133 fun s => { s.setReg 1 0xFE with i := 0x300 })
    (fun t => (t.memRead 0x300, t.memRead 0x301, t.i, t.ip)) = some (0, 0, 0x300, 0x202) := by decide +kernel
/-- DV-45-8, DV-45-13 -/
theorem test_stBlock :
    after (start 0xF255 fun s => { ((s.setReg 0 0x11).setReg 1 0x22).setReg 2 0x33 with i := 0x300 })
      (fun t => (t.memRead 0x300, t.memRead 0x301, t.memRead 0x302, t.memRead 0x303, t.i))
      = some (0x11, 0x22, 0x33, 0, 0x303) ∧
    after (start 0xF155 fun s => { (s.setReg 0 0xAA).setReg 1 0xBB with i := 0xFFFF })
      (fun t => (t.memRead 0, t.memRead 0xFFFF, t.i)) = some (0xBB, 0, 1) := by decide +kernel
/-- DV-45-10, DV-45-12 -/
theorem test_ldBlock :
    after (start 0xF265 fun s => ((({ s.setReg 3 0x77 with i := 0x300 }).memWrite 0x300 0x11).memWrite 0x301 0x22).memWrite
      0x302 0x33) (fun t => (t.reg 0, t.reg 1, t.reg 2, t.reg 3, t.i)) = some (0x11, 0x22, 0x33, 0x77, 0x303) ∧
    after (start 0xF165 fun s => { (s.setReg 0 1).setReg 1 2 with i := 0xFFF }) (fun t => (t.reg 0, t.reg 1, t.i))
      = some (0, 0, 0x1001) := by decide +kernel
/-- DV-46-1, DV-46-4 -/
theorem test_unknown : after (start 0x8128 fun s => (s.setReg 1 1).setReg 2 2) (fun t => (t.reg 1, t.reg 15, t.ip))
    = some (1, 0, 0x202) ∧ after (start 0xF187 (·.setDelay 9)) (fun t => (t.reg 1, t.ip)) = some (0, 0x202) := by
  decide +kernel

/-! ## Host operations (sections 3.5 and 3.8) -/

/-- What a view of the state shows after a host action. -/
def afterHost {α : Type} (a : HostAction) (s : State) (view : State → α) : Option α :=
  match hostStep a s with
  | .next t => some (view t)
  | _ => none

/-- DV-44-12, DV-44-13 -/
theorem test_keyDown : afterHost (.keyDown 7) (State.reset.beginWait 3) (fun t => (t.reg 3, t.wait, t.keys))
    = some (7, false, 0x80) ∧ afterHost (.keyDown 7) State.reset (fun t => (t.reg 0, t.keys)) = some (0, 0x80) := by
  decide +kernel
/-- DV-44-14; R227 -/
theorem test_keyUp : afterHost (.keyUp 7) { State.reset with keys := 0x81, wait := true } (fun t => (t.keys, t.wait))
    = some (1, true) ∧ hostStep (.keyUp 16) State.reset = .refused .keyIndexOutOfRange := ⟨by decide +kernel, rfl⟩
/-- DV-44-15, DV-44-16 -/
theorem test_tick : afterHost .tickDT (State.reset.setDelay 2) (·.dt) = some 1 ∧
    afterHost .tickDT State.reset (·.dt) = some 0 := by decide +kernel
/-- DV-20-1, DV-20-2 -/
theorem test_loadProgram : afterHost (.loadProgram [0xAA, 0xBB, 0xCC] 0xFFE) State.reset (·.mem)
    = some [(0xFFE, 0xAA), (0xFFF, 0xBB)] ∧ afterHost (.loadProgram [0xAA] 0x1000) State.reset (·.mem) = some [] := by
  decide +kernel
/-- R202, R35: pixel (0, 0) is bit 7 of byte 0, pixel (63, 31) bit 0 of byte 255. -/
theorem test_display_read : (Display.blank.flip 0 0).packed[0]? = some 0x80 ∧
    (Display.blank.flip 63 31).packed[255]? = some 1 ∧
    afterHost .readDisplay State.reset (·.dirty) = some false := by decide +kernel
/-- R13: the schedule's head acts. -/
theorem test_schedule : after (start 0x6104 fun s => { s with schedule := [.host (.keyDown 2), .core] })
    (fun t => (t.keys, t.ip, t.schedule)) = some (4, 0x200, [.core]) := by decide +kernel
/-- P1 of section 4: loaded, run to its jump to itself, V0 = 0A, V1 = 0E; the start has not ended (R16; log 31). -/
theorem test_run_P1 : (State.reset.loadProgram [0x61, 0x04, 0x60, 0x0A, 0x81, 0x04, 0x12, 0x06] 0x200).endedAt 0x206 = false ∧
    (match runUntil 0x206 4 (State.reset.loadProgram [0x61, 0x04, 0x60, 0x0A, 0x81, 0x04, 0x12, 0x06] 0x200) with
      | .next t => t.endedAt 0x206 && t.reg 0 == 0x0A && t.reg 1 == 0x0E && t.reg 15 == 0
      | _ => false) = true := by decide +kernel
/-- R33: the default font's glyph A at 0x32 (P4), and a write of a reset value leaves no entry. -/
theorem test_memory : State.reset.memRead 0x32 = 0xF0 ∧ State.reset.memRead 0x33 = 0x90 ∧ State.reset.memRead 0x50 = 0 ∧
    (State.reset.memWrite 0x300 1).mem = [(0x300, 1)] ∧ ((State.reset.memWrite 0x300 1).memWrite 0x300 0).mem = [] := by
  decide +kernel

/-! ## Disassembler (section 2.3, E5) -/

theorem test_disassemble : disassemble [0x61, 0x04] 0x200 = ["0x200: LD V1, #0x04"] := by decide +kernel
theorem test_resynchronise : disassemble [0x00, 0x61, 0x04, 0x81, 0x28, 0x12, 0x00, 0xE0, 0xF1] 0x200 =
    ["0x200: DB #0x00", "0x201: LD V1, #0x04", "0x203: DB #0x81", "0x204: CALL #0x812", "0x206: CLS", "0x208: DB #0xF1"] := by
  decide +kernel
theorem test_texts : [0xB456#16, 0xD12F#16, 0xF60A#16, 0xF655#16, 0xF665#16, 0x8AB7#16, 0x0000#16].map mnemonicOf =
    [some "JP V0, #0x456", some "DRW V1, V2, #0xF", some "LD V6, K", some "LD [I], V6", some "LD V6, [I]",
     some "SUBN VA, VB", none] := by decide +kernel
theorem test_inverse_map : inverseMap 0xD12F = some (.drw, [.reg 1, .reg 2, .count 15]) ∧ inverseMap 0x8128 = none := by
  decide +kernel

/-! ## Assembler (E6, R121 to R128) -/

theorem test_assemble_E6 : assemble "LOOP: CLS\nJP LOOP".toList 0x200 = .ok [0x00, 0xE0, 0x12, 0x00] := by rfl
/-- Keywords of either case, commas and whitespace, `$`, hexadecimal and negative immediates, a masked address. -/
theorem test_assemble_forms : assemble "  ld va , #0xFf\n\nskp V1\n jp $ \nJP #-1".toList 0x200
    = .ok [0x6A, 0xFF, 0xE1, 0x9E, 0x12, 0x04, 0x1F, 0xFF] := by rfl
theorem test_assemble_errors : assemble "CLS\nLD V1 #256".toList 0 = .error ⟨1, .immediateOutOfRange⟩ ∧
    assemble "OR V1 #2".toList 0 = .error ⟨0, .noImmediateForm⟩ ∧ assemble "#2".toList 0 = .error ⟨0, .strayToken⟩ ∧
    assemble "LD V1,#zz".toList 0 = .error ⟨0, .unparsableImmediate⟩ ∧
    assemble "DRW V1 V2".toList 0 = .error ⟨0, .missingCount⟩ ∧
    assemble "CLS .org".toList 0 = .error ⟨0, .directive⟩ := ⟨rfl, rfl, rfl, rfl, rfl, rfl⟩
/-- R129: one instruction a line. -/
theorem test_assemble_one_per_line : assemble "CLS RET".toList 0 = .error ⟨0, .unexpectedToken⟩ ∧
    assemble "A: B: CLS\nRET".toList 0 = .ok [0x00, 0xE0, 0x00, 0xEE] := ⟨rfl, rfl⟩
/-- A label under a reserved name is bound and out of reach: `$` stays the line's address (log 30). -/
theorem test_assemble_reserved_label : assemble "CLS: V0: $: CLS\nJP $".toList 0x200 = .ok [0x00, 0xE0, 0x12, 0x02] := by rfl
/-- R121: `[I]` is an identifier, a label that can be referenced; LD reads it as memory at I all the same (R127). -/
theorem test_assemble_index_memory : classify 0 ['[', 'i', ']'] = .ok ⟨['[', 'I', ']'], 0, .identifier⟩ ∧
    assemble "[I]: JP [I]\nLD I, [I]\nLD [I], V2\nLD V2, [I]".toList 0x200
      = .ok [0x12, 0x00, 0xA2, 0x00, 0xF2, 0x55, 0xF2, 0x65] := ⟨rfl, rfl⟩

/-! ## Witnesses: states and operands that meet the hypotheses of the obligations, at boundary values -/

/-- A state in the middle of a run: a key held, one return address, a set pixel, a changed byte at the end of memory. -/
def sample : State :=
  { State.reset with
    v := Vector.ofFn fun r => BitVec.ofNat 8 (16 * r.val + 3)
    i := 0xFFE
    sp := 1
    stack := State.reset.stack.set 0 0x204
    dt := 2
    keys := 0x8001
    mem := [(0x200, 0x61), (0x201, 0x04), (0xFFF, 0xA5)]
    disp := Display.blank.flip 3 3 }

theorem witness_DecodeEncodeRoundTrip : (Instr.drw 15 0 15).assemblable = true ∧ (Instr.jp 0xFFF).assemblable = true := by
  decide
theorem witness_EncodeOfDecodedWord : decode 0x5CD7 ≠ .unknown ∧ encode (decode 0x5CD7) = some 0x5CD0 ∧
    encode (decode 0xD12F) = some 0xD12F := by decide
theorem witness_DecoderAgreesWithOpcodeTable : (⟨.shl, 0x800E, 0xF00F⟩ : OpcodeRow) ∈ opcodeTable ∧
    (⟨.shl, 0x800E, 0xF00F⟩ : OpcodeRow).selects 0x8ABE = true := by decide
theorem witness_FamilyEightTable : decode (wordOfNibbles 8 15 0 0xF) = .unknown ∧
    decode (wordOfNibbles 8 0 15 0xE) = .shl 0 15 := by decide
theorem witness_DescriptorEncoderAgrees : Kind.shape .call = .address ∧ Kind.shape .jpV0 = .address ∧
    encodeDescriptor ⟨.jpV0, .address, none, none, none, none, some 0x1FFF⟩ = .ok 0xBFFF ∧
    encodeDescriptor (Instr.drw 1 2 5).descriptor = .ok 0xD125 ∧
    (Instr.drw 1 2 5).assemblable = true := ⟨rfl, rfl, rfl, rfl, rfl⟩
theorem witness_StepRunsDecodedInstruction : sample.coreTurn ∧ sample.schedule = [] ∧ sample.wait = false ∧
    decodeBytes [sample.memRead sample.ip, sample.memRead (sample.ip + 1)] = .ok (.ldImm 1 4, []) ∧
    (Instr.ldImm 1 4).wellFormed = true ∧ ({ sample with schedule := [.core] }).coreTurn :=
  ⟨.inl rfl, rfl, rfl, rfl, rfl, .inr ⟨[], rfl⟩⟩
theorem witness_FetchIsBigEndianAndBounded : sample.fetchWord 0x200 = 0x6104 ∧ sample.fetchWord 0xFFF = 0xA500 ∧
    sample.fetchWord 0x1000 = 0 ∧ sample.fetchWord 0xFFFE = 0 ∧ sample.fetchWord 0xFFFF = 0x00F0 := by decide +kernel
theorem witness_WaitingCoreIsStuckAndHostActs : (sample.beginWait 3).coreTurn ∧ (sample.beginWait 3).wait = true ∧
    ({ sample with schedule := [.host .tickDT] }).schedule = .host .tickDT :: [] := ⟨.inl rfl, rfl, rfl⟩
theorem witness_AluResults : (0 : RegIndex) ≠ vf ∧ (14 : RegIndex) ≠ vf ∧ ∃ k, Config.shiftAmount = k :=
  ⟨by decide, by decide, _, rfl⟩
theorem witness_CompareSkipResults : sample.reg 1 = 0x13 ∧ sample.reg 1 ≠ 0x14 ∧ sample.reg 1 ≠ sample.reg 2 ∧
    sample.reg 1 = sample.reg 1 := by decide
theorem witness_KeySkipResults : ((sample.setReg 0 15).reg 0).toNat ≤ 15 ∧ (sample.setReg 0 15).keys.getLsbD 15 = true ∧
    15 < ((sample.setReg 0 16).reg 0).toNat ∧ (sample.setReg 0 14).keys.getLsbD 14 = false := by decide
theorem witness_JumpResults : (start 0x1200).endedAt 0x200 = true ∧ (start 0x1200).schedule = [] := by decide +kernel
theorem witness_CallResult : ({ sample with sp := 15 }).sp.toNat < 16 ∧ 16 ≤ ({ sample with sp := 16 }).sp.toNat := by
  decide
theorem witness_ReturnResult : 0 < sample.sp.toNat ∧ ({ sample with sp := 16 }).sp.toNat ≤ 16 ∧
    ({ sample with sp := 0 }).sp.toNat = 0 ∧ 16 < ({ sample with sp := 17 }).sp.toNat := by decide
theorem witness_ReturnUndoesCall : ∃ t u, exec (.call 0x300) sample = .next t ∧ u.sp = t.sp ∧ u.stack = t.stack ∧ u ≠ t :=
  ⟨{ sample with ip := 0x300, sp := 2, stack := sample.stack.set 1 0x202 },
   { sample with ip := 0x310, sp := 2, stack := sample.stack.set 1 0x202 }, rfl, rfl, rfl, by decide +kernel⟩
/-- The sprite at 0xFFE, FFF is 00 A5; row 1 column 0 falls on (3, 20) and finds it clear. -/
theorem witness_DrawResult :
    sample.SpriteCovers (sample.reg 0).toNat (sample.reg 1).toNat 2 3 20 ∧
    sample.disp.pixel 3 20 = false ∧ ({ sample with disp := Display.blank.flip 3 20 }).disp.pixel 3 20 = true ∧
    ¬ sample.SpriteCovers 0 0 0 3 20 :=
  ⟨⟨1, by decide, 0, by decide, by decide +kernel, by decide, by decide⟩, by decide +kernel, by decide +kernel,
   fun ⟨_, h, _⟩ => absurd h (Nat.not_lt_zero _)⟩
theorem witness_DrawTwiceRestoresDisplay : ∃ t u, exec (.drw 0 1 2) sample = .next t ∧
    exec (.drw 0 1 2) { t with v := sample.v } = .next u := ⟨_, _, rfl, rfl⟩
theorem witness_DrawTwice_blank : ∀ px py, State.reset.disp.pixel px py = false := blank_pixel
theorem witness_KeyWaitCompletes : ∃ t, exec (.ldVxK 15) sample = .next t ∧ (15 : Nat) < 16 := ⟨_, rfl, by decide⟩
theorem witness_BlockStoreResult : Memory.wf sample.mem = true ∧ (1 : Nat) ≤ (2 : RegIndex).toNat ∧
    (sample.i + BitVec.ofNat 16 1).toNat < 4096 ∧ (∀ j : Nat, j ≤ 2 → (0x200 : Word) ≠ sample.i + BitVec.ofNat 16 j) :=
  ⟨rfl, by decide, by decide, by intro j hj; match j with | 0 | 1 | 2 => decide⟩
theorem witness_BlockLoadResult : (2 : RegIndex).toNat ≤ (2 : RegIndex).toNat ∧ (2 : RegIndex).toNat < (3 : RegIndex).toNat := by
  decide
theorem witness_BlockLoadReadsBlockStore : ∃ t u : State, Memory.wf sample.mem = true ∧ sample.i.toNat + (1 : RegIndex).toNat < 4096 ∧
    exec (.stBlock 1) sample = .next t ∧ u.mem = t.mem ∧ u.i = sample.i :=
  ⟨_, { State.reset with mem := (sample.storeRegs 2).mem, i := sample.i }, rfl, by decide, rfl, rfl, rfl⟩
theorem witness_MemRead_MemWrite : (0xFFF : Word).toNat < 4096 ∧ 4096 ≤ (0x1000 : Word).toNat ∧ sample.memRead 0xFFF = 0xA5 ∧
    sample.memRead 0x1000 = 0 ∧ Memory.wf sample.mem = true ∧ (0xFFE : Word) ≠ 0xFFF := by decide +kernel
theorem witness_StoredWordIsFetched : ∃ t, Memory.wf sample.mem = true ∧ exec (.stBlock 1) sample = .next t ∧
    (0 : Nat) + 1 ≤ (1 : RegIndex).toNat ∧ sample.i.toNat + 0 + 1 < 4096 := ⟨_, rfl, rfl, by decide, by decide⟩
theorem witness_LoadProgramResult : ([0xAA, 0xBB, 0xCC] : List Byte)[1]? = some 0xBB ∧ 0xFFE + 1 < 4096 ∧
    (0xFFD : Word).toNat < 0xFFE ∧ 0xFFE + 3 ≤ (0x1001 : Word).toNat := by decide
theorem witness_StepKeepsInvariant : ∃ t, sample.Inv ∧ step sample = .next t := ⟨_, ⟨rfl, by decide⟩, rfl⟩
theorem witness_ResetHoldsTheFont : (List.replicate 80 (7 : Byte)).length = 80 ∧ (79 : Word).toNat < 80 ∧
    80 ≤ (80 : Word).toNat := by decide
theorem witness_ControlSignalsDescribeExec : ∃ t, exec (.ldBlock 3) sample = .next t ∧
    ¬ (controlSignals (.ldBlock)).MayWrite (.ldBlock 3) 4 ∧ (controlSignals .ldBlock).MayWrite (.ldBlock 3) 3 :=
  ⟨_, rfl, fun h => h.elim (fun h => absurd h.1 (by decide)) fun ⟨x, hx, h⟩ => by cases hx; exact absurd h (by decide),
   .inr ⟨3, rfl, by decide⟩⟩
theorem witness_StateChanges_core :
    after (start 0xF118 (·.setReg 1 5)) (fun t => t.st != 0) = some true ∧
    after (start 0xF115 (·.setReg 1 5)) (fun t => decide (t.dt.toNat > 0)) = some true ∧
    after (start 0x2300) (fun t => t.stack != State.reset.stack && t.sp != 0) = some true ∧
    after (start 0x00E0 fun s => { s with disp := s.disp.flip 0 0 }) (fun t => t.disp != Display.blank.flip 0 0) = some true ∧
    after (start 0xA300) (fun t => t.i != 0 && t.ip != 0x200) = some true ∧
    after (start 0xF30A) (fun t => t.waitReg != 0 && t.wait) = some true ∧
    after (start 0x6104) (fun t => t.reg 1 != 0) = some true ∧
    after (start 0xF055 fun s => { s.setReg 0 1 with i := 0x300 }) (fun t => t.mem != (start 0xF055).mem) = some true := by
  decide +kernel
theorem witness_StateChanges_host :
    after { sample with schedule := [.host .tickDT] } (fun t => t.dt != sample.dt) = some true ∧
    after { sample with schedule := [.host (.keyUp 0)] } (fun t => t.keys != sample.keys) = some true ∧
    after { sample with schedule := [.host .readDisplay] } (fun t => sample.dirty && !t.dirty) = some true ∧
    after { sample.beginWait 3 with schedule := [.host (.keyDown 15)] } (fun t => (t.wait, t.reg 3 != sample.reg 3))
      = some (false, true) ∧
    after { sample with schedule := [.host (.loadProgram [1] 0x300)] } (fun t => t.mem != sample.mem) = some true := by
  decide +kernel
theorem witness_FlagIsZeroOrOneAndOnlyWhereNamed : ∃ t u, exec (.addReg 15 15) sample = .next t ∧
    (Instr.addReg 15 15).kind ∈ [.addReg, .sub, .subn, .shr, .shl, .drw] ∧
    exec (.ldImm 15 0x55) sample = .next u ∧ (Instr.ldImm 15 0x55).kind ∉ [.addReg, .sub, .subn, .shr, .shl, .drw] ∧
    u.reg vf ≠ sample.reg vf := ⟨_, _, rfl, by decide, rfl, by decide, by decide⟩
theorem witness_ExecStopsOnlyOnTheStack : exec (.call 0) { sample with sp := 16 } = .fault .stackOverflow ∧
    exec .ret { sample with sp := 0 } = .fault .stackUnderflow ∧
    ({ sample with sp := 16 }).sp.toNat ≤ 16 ∧ ({ sample with sp := 0 }).sp.toNat ≤ 16 := ⟨rfl, rfl, by decide, by decide⟩
theorem witness_DutifulCoreAlwaysRuns : sample.Inv ∧ sample.coreTurn ∧ sample.wait = false ∧
    (∀ nnn, sample.nextInstr = .call nnn → sample.sp.toNat < 16) ∧ (sample.nextInstr = .ret → 0 < sample.sp.toNat) :=
  ⟨⟨rfl, by decide⟩, .inl rfl, rfl, fun _ _ => by decide, fun _ => by decide⟩
theorem witness_DutifulCore_call_and_ret : (start 0x2300 fun s => { s with sp := 15 }).nextInstr = .call 0x300 ∧
    (start 0x00EE fun s => { s with sp := 1 }).nextInstr = .ret := ⟨rfl, rfl⟩
theorem witness_KeyDownResult : (15 : Nat) < 16 ∧ sample.wait = false ∧ (sample.beginWait 15).wait = true := ⟨by decide, rfl, rfl⟩
theorem witness_KeyUpResult : (0 : Nat) < 16 ∧ (15 : Nat) < 16 := by decide
theorem witness_OnlyKeyDownEndsTheWait : (sample.beginWait 3).wait = true ∧
    (∀ k, (HostAction.keyDown 15 = .keyDown k ∨ HostAction.keyDown 15 = .keyUp k) → k < 16) ∧ 16 ≤ (16 : Nat) :=
  ⟨rfl, fun k h => by rcases h with h | h <;> cases h; decide, by decide⟩
theorem witness_ListingCoversTheBuffer : (walk 0x200 [0x00, 0xE0, 0xF1])[0]? = some ⟨0x200, .insn .cls⟩ ∧
    (walk 0x200 [0x00, 0xE0, 0xF1])[1]? = some ⟨0x202, .raw 0xF1⟩ := by decide +kernel
theorem witness_ListingOfAssembledCode : ∀ i ∈ [Instr.cls, .jp 0x200], i.assemblable = true := by decide
theorem witness_AssemblingTheTextGivesTheWord : (Instr.drw 1 2 15).assemblable = true ∧ (Instr.ldBlock 6).assemblable = true := by
  decide
theorem witness_AssembledOutputIsInstructions : assemble "LD V1,#4".toList 0x200 = .ok [0x61, 0x04] := by rfl

end Sys2Proof.Tests
end

section
/-! The clamp of `20_memory.md` R62 and R63 at 4096, and the two statements about a single byte access (O38, O39). -/

namespace Sys2Proof.Machine

/-! ## The clamp: one lemma per side of the bound -/

theorem read_below (m : Memory) (a : Word) (ha : a.toNat < Config.memSize) :
    Memory.read m a = Memory.lookup m a.toNat := if_pos ha

theorem write_beyond (m : Memory) (a : Word) (b : Byte) (ha : Config.memSize ≤ a.toNat) :
    Memory.write m a b = m := if_neg (Nat.not_lt.mpr ha)

theorem memWrite_beyond (s : State) (a : Word) (b : Byte) (ha : Config.memSize ≤ a.toNat) : s.memWrite a b = s := by
  rw [State.memWrite, write_beyond s.mem a b ha]

/-- The frame of a byte write: memory is the only field it can change, at any address. -/
theorem memWrite_frame (s : State) (a : Word) (b : Byte) :
    s.memWrite a b = { s with mem := (s.memWrite a b).mem } := rfl

/-! ## The statements -/

/-- Settles O38: the two sides of the read's bound. -/
theorem memReadBounded : Obligations.MemReadBounded := fun s a =>
  ⟨read_below s.mem a, read_beyond s.mem a⟩

/-- Settles O39: below the bound the laws of a byte read after a write, at and above it the write is dropped. Canonical
memory is needed for the written byte only. -/
theorem memWriteBounded : Obligations.MemWriteBounded := by
  intro s a b hwf
  constructor
  · intro ha
    exact ⟨memRead_memWrite_same s a b hwf ha, fun c hc => memRead_memWrite_other s a c b hc, memWrite_frame s a b⟩
  · intro ha
    exact memWrite_beyond s a b ha

end Sys2Proof.Machine
end

section
/-! The fields of a word given by its nibbles, and the table of family 8 on the low nibble (`30_encoding.md` R91, R99;
O4). -/

namespace Sys2Proof

/-! ## The fields of a word given by its nibbles -/

@[simp] theorem familyOf_wordOfNibbles (f x y n : BitVec 4) : familyOf (wordOfNibbles f x y n) = f := by
  rw [familyOf, wordOfNibbles, BitVec.extractLsb'_append_eq_of_le (by decide),
    BitVec.extractLsb'_append_eq_of_le (by decide), BitVec.extractLsb'_append_eq_of_le (by decide),
    BitVec.extractLsb'_eq_self]

@[simp] theorem dstOf_wordOfNibbles (f x y n : BitVec 4) : dstOf (wordOfNibbles f x y n) = x := by
  rw [dstOf, wordOfNibbles, BitVec.extractLsb'_append_eq_of_le (by decide),
    BitVec.extractLsb'_append_eq_of_le (by decide), BitVec.extractLsb'_append_eq_of_add_le (by decide),
    BitVec.extractLsb'_eq_self]

@[simp] theorem srcOf_wordOfNibbles (f x y n : BitVec 4) : srcOf (wordOfNibbles f x y n) = y := by
  rw [srcOf, wordOfNibbles, BitVec.extractLsb'_append_eq_of_le (by decide),
    BitVec.extractLsb'_append_eq_of_add_le (by decide), BitVec.extractLsb'_eq_self]

@[simp] theorem nibbleOf_wordOfNibbles (f x y n : BitVec 4) : nibbleOf (wordOfNibbles f x y n) = n := by
  rw [nibbleOf, wordOfNibbles, BitVec.extractLsb'_append_eq_of_add_le (by decide), BitVec.extractLsb'_eq_self]

/-! ## Family 8 -/

theorem decode_of_family8 (w : Word) (hw : familyOf w = 8) : decode w = decodeFamily8 w := by
  simp [decode, hw]

/-- The slots of the 16-entry table that hold no instruction. -/
theorem decodeFamily8_eq_unknown_iff (w : Word) :
    decodeFamily8 w = .unknown ↔ nibbleOf w ∈ [0x8#4, 0x9#4, 0xA#4, 0xB#4, 0xC#4, 0xD#4, 0xF#4] := by
  unfold decodeFamily8
  generalize nibbleOf w = n
  iterate 9
    split
    next hn =>
      simp only [hn, reduceCtorEq, false_iff]
      decide
  simp only [true_iff]
  revert n
  decide

/-- Settles O4: the fields of the word select the table's slot and give its operands. -/
theorem familyEightTable : Obligations.FamilyEightTable := by
  intro x y
  have hdecode (n : BitVec 4) : decode (wordOfNibbles 8 x y n) = decodeFamily8 (wordOfNibbles 8 x y n) :=
    decode_of_family8 _ (familyOf_wordOfNibbles 8 x y n)
  simp only [hdecode]
  refine ⟨?_, ?_, ?_, ?_, ?_, ?_, ?_, ?_, ?_, ?unused, ?shapes, rfl⟩
  case unused =>
    intro n hn
    rwa [decodeFamily8_eq_unknown_iff, nibbleOf_wordOfNibbles]
  case shapes => decide
  all_goals simp [decodeFamily8]

end Sys2Proof
end

section
/-! Loads and bitwise operations (`42_load_alu.md` R173, R174, R178 to R180; O12, O13, O14): the fields of a word given by a
family, a register and a byte, and the one ALU write without a flag that all five instructions are. -/

namespace Sys2Proof

/-! ## The fields of a word given by a family, a register and a byte -/

@[simp] theorem familyOf_append_byte (f : BitVec 4) (x : RegIndex) (kk : Byte) : familyOf (f ++ x ++ kk) = f := by
  rw [familyOf, BitVec.extractLsb'_append_eq_of_le (by decide), BitVec.extractLsb'_append_eq_of_le (by decide),
    BitVec.extractLsb'_eq_self]

@[simp] theorem dstOf_append_byte (f : BitVec 4) (x : RegIndex) (kk : Byte) : dstOf (f ++ x ++ kk) = x := by
  rw [dstOf, BitVec.extractLsb'_append_eq_of_le (by decide), BitVec.extractLsb'_append_eq_of_add_le (by decide),
    BitVec.extractLsb'_eq_self]

@[simp] theorem immediateByteOf_append_byte (f : BitVec 4) (x : RegIndex) (kk : Byte) :
    immediateByteOf (f ++ x ++ kk) = kk := by
  rw [immediateByteOf, BitVec.extractLsb'_append_eq_of_add_le (by decide), BitVec.extractLsb'_eq_self]

theorem decode_of_family6 (w : Word) (hw : familyOf w = 6) : decode w = .ldImm (dstOf w) (immediateByteOf w) := by
  simp [decode, hw]

end Sys2Proof

namespace Sys2Proof.Machine

/-! ## The end of an instruction that writes registers only -/

/-- The last update of an instruction advances IP as the frames say, whatever was written before, but not to IP. -/
theorem ipAdvances_advance (n : Nat) {s u : State} (hip : u.ip = s.ip) : IpAdvances n s (u.advance n) := by
  intro hlt
  rw [advance_ip, hip, BitVec.toNat_add, BitVec.toNat_ofNat]
  omega

/-- An ALU write and the advance of IP change the register file and IP, with or without a flag. -/
theorem onlyRegsIp_aluWrite_advance (s : State) (op : AluOp) (x : RegIndex) (b : Byte) (n : Nat) :
    OnlyRegsIp s ((s.aluWrite op x b).advance n) := by
  rw [aluWrite_frame]
  exact ⟨rfl, fun _ => rfl⟩

/-- An instruction that ends in an ALU write without a flag: the result in V[x], every other register kept, IP moved by 2. -/
theorem done_aluWrite_of_no_flag (s : State) (op : AluOp) (x : RegIndex) (b : Byte)
    (hflag : (alu op (s.reg x) b).flag = none) :
    ∃ t, done 2 (s.aluWrite op x b) = .next t ∧ t.reg x = (alu op (s.reg x) b).result ∧ RegsKeptBut x s t ∧
      IpAdvances 2 s t ∧ OnlyRegsIp s t := by
  have hreg (r : RegIndex) :
      (s.aluWrite op x b).reg r = if r = x then (alu op (s.reg x) b).result else s.reg r := by
    rw [aluWrite_reg, hflag]
  have hip : (s.aluWrite op x b).ip = s.ip := by rw [aluWrite_frame]
  refine ⟨_, done_eq 2 _, ?result, ?kept, ipAdvances_advance 2 hip, onlyRegsIp_aluWrite_advance s op x b 2⟩
  case result => rw [advance_reg, hreg, if_pos rfl]
  case kept =>
    intro r hr
    rw [advance_reg, hreg, if_neg hr]

/-! ## The statements -/

/-- Settles O12: the fields of the word give the operands, and LD Vx, #kk passes its immediate through the ALU. -/
theorem loadImmediateResult : Obligations.LoadImmediateResult := by
  intro x kk s
  constructor
  · rw [decode_of_family6 _ (familyOf_append_byte 6#4 x kk), dstOf_append_byte, immediateByteOf_append_byte]
  · exact done_aluWrite_of_no_flag s .passB x kk rfl

/-- Settles O13: slot 0 of family 8, and V[y] passed through the ALU. -/
theorem loadRegisterResult : Obligations.LoadRegisterResult := by
  intro x y s
  obtain ⟨hdecode, -⟩ := familyEightTable x y
  exact ⟨hdecode, done_aluWrite_of_no_flag s .passB x (s.reg y) rfl⟩

/-- Settles O14: slots 1, 2 and 3 of family 8, and the three operations of the ALU that have no flag. -/
theorem logicResults : Obligations.LogicResults := by
  intro x y s
  obtain ⟨-, hor, hand, hxor, -⟩ := familyEightTable x y
  exact ⟨hor, hand, hxor, done_aluWrite_of_no_flag s .or x (s.reg y) rfl,
    done_aluWrite_of_no_flag s .and x (s.reg y) rfl, done_aluWrite_of_no_flag s .xor x (s.reg y) rfl⟩

end Sys2Proof.Machine
end

section
/-! CLS (`43_display.md` R200; O26): the end of an instruction that replaces the display, and the blank display. -/

namespace Sys2Proof.Machine

/-! ## The end of an instruction that replaces the display -/

/-- Replacing the display and advancing IP change the display, DIRTY and IP only. -/
theorem setDisplay_advance_frame (s : State) (d : Display) (n : Nat) :
    (s.setDisplay d).advance n =
      { s with disp := d, dirty := true, ip := ((s.setDisplay d).advance n).ip } := rfl

theorem memoryKept_setDisplay_advance (s : State) (d : Display) (n : Nat) :
    MemoryKept s ((s.setDisplay d).advance n) := by
  intro a
  rw [advance_memRead, setDisplay_memRead]

theorem exec_cls (s : State) : exec .cls s = .next ((s.setDisplay Display.blank).advance 2) := rfl

/-! ## The statement -/

/-- Settles O26: the whole word 00E0 is CLS both ways, and CLS installs the blank display, all of whose pixels are 0. -/
theorem clearScreenResult : Obligations.ClearScreenResult := by
  refine ⟨by decide, rfl, fun s => ⟨_, exec_cls s, ?pixels, ?dirty, ?ip, ?frame, ?memory⟩⟩
  case pixels =>
    intro px py
    rw [advance_disp, setDisplay_disp]
    exact blank_pixel px py
  case dirty => rw [advance_dirty, setDisplay_dirty]
  case ip => exact ipAdvances_advance 2 (setDisplay_ip s Display.blank)
  case frame => exact setDisplay_advance_frame s Display.blank 2
  case memory => exact memoryKept_setDisplay_advance s Display.blank 2

end Sys2Proof.Machine
end

section
/-! The host's `keyUp` (`44_keys_timers.md` R226; O52): which transition it is, and the latch bits after it. -/

namespace Sys2Proof.Machine

/-! ## `keyUp`: the transition, the latch bits, the frame -/

theorem hostStep_keyUp_of_lt {k : Nat} (hk : k < 16) (s : State) :
    hostStep (.keyUp k) s = .next (s.keyUp (BitVec.ofNat 4 k)) := if_pos hk

/-- Clearing one bit of a latch: that bit is 0 afterwards, the others are as before. -/
theorem getLsbD_and_not_twoPow (keys : BitVec 16) (k : Nat) {j : Nat} (hj : j < 16) :
    (keys &&& ~~~BitVec.twoPow 16 k).getLsbD j = (!decide (j = k) && keys.getLsbD j) := by
  have hbit : (BitVec.twoPow 16 k).getLsbD j = decide (j = k) := by
    rw [BitVec.getLsbD_twoPow, ← Bool.decide_and, decide_eq_decide]
    omega
  rw [BitVec.getLsbD_and, BitVec.getLsbD_not, hbit, decide_eq_true hj, Bool.true_and, Bool.and_comm]

theorem keyUp_keys_getLsbD (s : State) (k : BitVec 4) {j : Nat} (hj : j < 16) :
    (s.keyUp k).keys.getLsbD j = (!decide (j = k.toNat) && s.keys.getLsbD j) :=
  getLsbD_and_not_twoPow s.keys k.toNat hj

@[simp] theorem keyUp_wait (s : State) (k : BitVec 4) : (s.keyUp k).wait = s.wait := rfl

/-- `keyUp` changes the latch only. -/
theorem keyUp_frame (s : State) (k : BitVec 4) : s.keyUp k = { s with keys := (s.keyUp k).keys } := rfl

/-! ## The statement -/

/-- Settles O52: an index below 16 is its own four-bit code, and clearing that bit of the latch is all `keyUp` does. -/
theorem keyUpResult : Obligations.KeyUpResult := by
  intro k s hk
  refine ⟨_, hostStep_keyUp_of_lt hk s, ?bits, keyUp_wait s _, keyUp_frame s _⟩
  case bits =>
    intro j hj
    have hcode : (BitVec.ofNat 4 k).toNat = k := Nat.mod_eq_of_lt hk
    rw [keyUp_keys_getLsbD s _ hj, hcode]

end Sys2Proof.Machine
end

section
/-! Decoding two bytes is total and shape consistent (`46_unknown.md` R257; O6): the lemmas of `Laws/PerInstr.lean` put
together for every instruction, and the decoder on two bytes. -/

namespace Sys2Proof

/-! ## The descriptor of any instruction -/

open Laws in
/-- The operand types bound the fields, so no instruction has an ill-formed descriptor, whatever word it came from. -/
theorem Instr.descriptor_wellFormed : ∀ i : Instr, i.descriptor.wellFormed = true
  | .cls => DescriptorWf.cls
  | .ret => DescriptorWf.ret
  | .jp nnn => DescriptorWf.jp nnn
  | .call nnn => DescriptorWf.call nnn
  | .seImm x kk => DescriptorWf.seImm x kk
  | .sneImm x kk => DescriptorWf.sneImm x kk
  | .seReg x y => DescriptorWf.seReg x y
  | .ldImm x kk => DescriptorWf.ldImm x kk
  | .addImm x kk => DescriptorWf.addImm x kk
  | .ldReg x y => DescriptorWf.ldReg x y
  | .or x y => DescriptorWf.or x y
  | .and x y => DescriptorWf.and x y
  | .xor x y => DescriptorWf.xor x y
  | .addReg x y => DescriptorWf.addReg x y
  | .sub x y => DescriptorWf.sub x y
  | .shr x y => DescriptorWf.shr x y
  | .subn x y => DescriptorWf.subn x y
  | .shl x y => DescriptorWf.shl x y
  | .sneReg x y => DescriptorWf.sneReg x y
  | .ldI nnn => DescriptorWf.ldI nnn
  | .jpV0 nnn => DescriptorWf.jpV0 nnn
  | .rnd x kk => DescriptorWf.rnd x kk
  | .drw x y n => DescriptorWf.drw x y n
  | .skp x => DescriptorWf.skp x
  | .sknp x => DescriptorWf.sknp x
  | .ldVxDt x => DescriptorWf.ldVxDt x
  | .ldVxK x => DescriptorWf.ldVxK x
  | .ldDtVx x => DescriptorWf.ldDtVx x
  | .ldStVx x => DescriptorWf.ldStVx x
  | .addIVx x => DescriptorWf.addIVx x
  | .ldFVx x => DescriptorWf.ldFVx x
  | .ldBVx x => DescriptorWf.ldBVx x
  | .stBlock x => DescriptorWf.stBlock x
  | .ldBlock x => DescriptorWf.ldBlock x
  | .unknown => DescriptorWf.unknown

@[simp] theorem Instr.descriptor_shape (i : Instr) : i.descriptor.shape = i.kind.shape := by
  cases i <;> rfl

/-! ## The decoder on two bytes -/

/-- Two bytes are one opcode word, and no byte is left. -/
theorem decodeBytes_pair (hi lo : Byte) : decodeBytes [hi, lo] = .ok (decode (wordOfBytes hi lo), []) := rfl

/-! ## The statement -/

/-- Settles O6: two bytes form a word, `decode` answers an instruction on every word, and every instruction's descriptor is
well formed with its kind's shape, which for UNKNOWN is None. -/
theorem decodingIsTotalAndShapeConsistent : Obligations.DecodingIsTotalAndShapeConsistent := by
  intro hi lo
  refine ⟨decode (wordOfBytes hi lo), decodeBytes_pair hi lo, Instr.descriptor_wellFormed _, Instr.descriptor_shape _,
    ?unknown⟩
  case unknown =>
    intro hkind
    rw [Instr.descriptor_shape, hkind, Kind.shape]

end Sys2Proof
end

section
/-! Words by their fields (`30_encoding.md` R91, R104): a word is its fields put together, as bits or-ed into place, and the
fields read off a word put together. -/

namespace Sys2Proof

/-! ## A word is its fields put together -/

theorem append_address_fields (w : Word) : familyOf w ++ addressOf w = w :=
  (BitVec.extractLsb'_append_extractLsb'_eq_extractLsb' rfl).trans BitVec.extractLsb'_eq_self

theorem append_byte_fields (w : Word) : familyOf w ++ dstOf w ++ immediateByteOf w = w := by
  have h : familyOf w ++ dstOf w = w.extractLsb' 8 8 := BitVec.extractLsb'_append_extractLsb'_eq_extractLsb' rfl
  rw [h]
  exact (BitVec.extractLsb'_append_extractLsb'_eq_extractLsb' rfl).trans BitVec.extractLsb'_eq_self

theorem wordOfNibbles_fields (w : Word) : wordOfNibbles (familyOf w) (dstOf w) (srcOf w) (nibbleOf w) = w := by
  have h : familyOf w ++ dstOf w = w.extractLsb' 8 8 := BitVec.extractLsb'_append_extractLsb'_eq_extractLsb' rfl
  have h' : w.extractLsb' 8 8 ++ srcOf w = w.extractLsb' 4 12 := BitVec.extractLsb'_append_extractLsb'_eq_extractLsb' rfl
  rw [wordOfNibbles, h, h']
  exact (BitVec.extractLsb'_append_extractLsb'_eq_extractLsb' rfl).trans BitVec.extractLsb'_eq_self

theorem wordOfBytes_bytes (w : Word) : wordOfBytes (w.extractLsb' 8 8) (w.extractLsb' 0 8) = w :=
  (BitVec.extractLsb'_append_extractLsb'_eq_extractLsb' rfl).trans BitVec.extractLsb'_eq_self

/-! ## The fields of a word given by a family and an address, and the low byte of nibbles -/

@[simp] theorem familyOf_append_address (f : BitVec 4) (nnn : Address) : familyOf (f ++ nnn) = f := by
  rw [familyOf, BitVec.extractLsb'_append_eq_of_le (by decide), BitVec.extractLsb'_eq_self]

@[simp] theorem addressOf_append_address (f : BitVec 4) (nnn : Address) : addressOf (f ++ nnn) = nnn := by
  rw [addressOf, BitVec.extractLsb'_append_eq_of_add_le (by decide), BitVec.extractLsb'_eq_self]

/-! ## Fields as bits or-ed into place -/

theorem append_address_eq_or (f : BitVec 4) (nnn : Address) :
    f ++ nnn = f.setWidth 16 <<< 12 ||| nnn.setWidth 16 :=
  (BitVec.setWidth_eq _).symm.trans BitVec.setWidth_append_eq_shiftLeft_setWidth_or

theorem append_byte_eq_or (f : BitVec 4) (x : RegIndex) (kk : Byte) :
    f ++ x ++ kk = f.setWidth 16 <<< 12 ||| x.setWidth 16 <<< 8 ||| kk.setWidth 16 :=
  (BitVec.setWidth_eq _).symm.trans BitVec.setWidth_append_append_eq_shiftLeft_setWidth_or

theorem wordOfNibbles_eq_or (f x y n : BitVec 4) :
    wordOfNibbles f x y n =
      f.setWidth 16 <<< 12 ||| x.setWidth 16 <<< 8 ||| y.setWidth 16 <<< 4 ||| n.setWidth 16 :=
  (BitVec.setWidth_eq _).symm.trans BitVec.setWidth_append_append_append_eq_shiftLeft_setWidth_or

theorem or_right_comm (a b c : Word) : a ||| b ||| c = a ||| c ||| b := by
  rw [BitVec.or_assoc, BitVec.or_comm b, ← BitVec.or_assoc]

theorem address_or (f : BitVec 4) (nnn : Address) : f ++ 0#12 ||| nnn.setWidth 16 = f ++ nnn := by
  simp [append_address_eq_or]

theorem byte_or_dst (f : BitVec 4) (x : RegIndex) (lo : Byte) :
    f ++ 0#4 ++ lo ||| x.setWidth 16 <<< 8 = f ++ x ++ lo := by
  simp [append_byte_eq_or, or_right_comm]

theorem byte_or_dst_byte (f : BitVec 4) (x : RegIndex) (kk : Byte) :
    f ++ 0#4 ++ 0#8 ||| (x.setWidth 16 <<< 8 ||| kk.setWidth 16) = f ++ x ++ kk := by
  simp [append_byte_eq_or, BitVec.or_assoc]

theorem nibbles_or_dst_src (f n : BitVec 4) (x y : RegIndex) :
    wordOfNibbles f 0 0 n ||| (x.setWidth 16 <<< 8 ||| y.setWidth 16 <<< 4) = wordOfNibbles f x y n := by
  simp [wordOfNibbles_eq_or, ← BitVec.or_assoc, or_right_comm _ (n.setWidth 16)]

theorem nibbles_or_dst_src_nibble (f n : BitVec 4) (x y : RegIndex) :
    wordOfNibbles f 0 0 0 ||| (x.setWidth 16 <<< 8 ||| y.setWidth 16 <<< 4 ||| n.setWidth 16) = wordOfNibbles f x y n := by
  simp [wordOfNibbles_eq_or, BitVec.or_assoc]

/-! ## The word of an instruction -/

/-- The opcode word of an instruction as its fields put together (R93): what `encode` computes by or-ing bits into a base
word. UNKNOWN has none; 0 stands for it. -/
def Instr.word : Instr → Word
  | .cls => 0x00E0
  | .ret => 0x00EE
  | .jp nnn => 0x1#4 ++ nnn
  | .call nnn => 0x2#4 ++ nnn
  | .seImm x kk => 0x3#4 ++ x ++ kk
  | .sneImm x kk => 0x4#4 ++ x ++ kk
  | .seReg x y => wordOfNibbles 0x5 x y 0x0
  | .ldImm x kk => 0x6#4 ++ x ++ kk
  | .addImm x kk => 0x7#4 ++ x ++ kk
  | .ldReg x y => wordOfNibbles 0x8 x y 0x0
  | .or x y => wordOfNibbles 0x8 x y 0x1
  | .and x y => wordOfNibbles 0x8 x y 0x2
  | .xor x y => wordOfNibbles 0x8 x y 0x3
  | .addReg x y => wordOfNibbles 0x8 x y 0x4
  | .sub x y => wordOfNibbles 0x8 x y 0x5
  | .shr x y => wordOfNibbles 0x8 x y 0x6
  | .subn x y => wordOfNibbles 0x8 x y 0x7
  | .shl x y => wordOfNibbles 0x8 x y 0xE
  | .sneReg x y => wordOfNibbles 0x9 x y 0x0
  | .ldI nnn => 0xA#4 ++ nnn
  | .jpV0 nnn => 0xB#4 ++ nnn
  | .rnd x kk => 0xC#4 ++ x ++ kk
  | .drw x y n => wordOfNibbles 0xD x y n
  | .skp x => 0xE#4 ++ x ++ 0x9E#8
  | .sknp x => 0xE#4 ++ x ++ 0xA1#8
  | .ldVxDt x => 0xF#4 ++ x ++ 0x07#8
  | .ldVxK x => 0xF#4 ++ x ++ 0x0A#8
  | .ldDtVx x => 0xF#4 ++ x ++ 0x15#8
  | .ldStVx x => 0xF#4 ++ x ++ 0x18#8
  | .addIVx x => 0xF#4 ++ x ++ 0x1E#8
  | .ldFVx x => 0xF#4 ++ x ++ 0x29#8
  | .ldBVx x => 0xF#4 ++ x ++ 0x33#8
  | .stBlock x => 0xF#4 ++ x ++ 0x55#8
  | .ldBlock x => 0xF#4 ++ x ++ 0x65#8
  | .unknown => 0

theorem encode_eq_word : ∀ i : Instr, i.assemblable = true → encode i = some i.word
  | .cls, _ => rfl
  | .ret, _ => rfl
  | .jp nnn, _ => congrArg some (address_or 0x1 nnn)
  | .call nnn, _ => congrArg some (address_or 0x2 nnn)
  | .seImm x kk, _ => congrArg some (byte_or_dst_byte 0x3 x kk)
  | .sneImm x kk, _ => congrArg some (byte_or_dst_byte 0x4 x kk)
  | .seReg x y, _ => congrArg some (nibbles_or_dst_src 0x5 0x0 x y)
  | .ldImm x kk, _ => congrArg some (byte_or_dst_byte 0x6 x kk)
  | .addImm x kk, _ => congrArg some (byte_or_dst_byte 0x7 x kk)
  | .ldReg x y, _ => congrArg some (nibbles_or_dst_src 0x8 0x0 x y)
  | .or x y, _ => congrArg some (nibbles_or_dst_src 0x8 0x1 x y)
  | .and x y, _ => congrArg some (nibbles_or_dst_src 0x8 0x2 x y)
  | .xor x y, _ => congrArg some (nibbles_or_dst_src 0x8 0x3 x y)
  | .addReg x y, _ => congrArg some (nibbles_or_dst_src 0x8 0x4 x y)
  | .sub x y, _ => congrArg some (nibbles_or_dst_src 0x8 0x5 x y)
  | .shr x y, _ => congrArg some (nibbles_or_dst_src 0x8 0x6 x y)
  | .subn x y, _ => congrArg some (nibbles_or_dst_src 0x8 0x7 x y)
  | .shl x y, _ => congrArg some (nibbles_or_dst_src 0x8 0xE x y)
  | .sneReg x y, _ => congrArg some (nibbles_or_dst_src 0x9 0x0 x y)
  | .ldI nnn, _ => congrArg some (address_or 0xA nnn)
  | .jpV0 nnn, _ => congrArg some (address_or 0xB nnn)
  | .rnd x kk, _ => congrArg some (byte_or_dst_byte 0xC x kk)
  | .drw x y n, _ => congrArg some (nibbles_or_dst_src_nibble 0xD n x y)
  | .skp x, _ => congrArg some (byte_or_dst 0xE x 0x9E)
  | .sknp x, _ => congrArg some (byte_or_dst 0xE x 0xA1)
  | .ldVxDt x, _ => congrArg some (byte_or_dst 0xF x 0x07)
  | .ldVxK x, _ => congrArg some (byte_or_dst 0xF x 0x0A)
  | .ldDtVx x, _ => congrArg some (byte_or_dst 0xF x 0x15)
  | .ldStVx x, _ => congrArg some (byte_or_dst 0xF x 0x18)
  | .addIVx x, _ => congrArg some (byte_or_dst 0xF x 0x1E)
  | .ldFVx x, _ => congrArg some (byte_or_dst 0xF x 0x29)
  | .ldBVx x, _ => congrArg some (byte_or_dst 0xF x 0x33)
  | .stBlock x, _ => congrArg some (byte_or_dst 0xF x 0x55)
  | .ldBlock x, _ => congrArg some (byte_or_dst 0xF x 0x65)

theorem assemblable_iff (i : Instr) : i.assemblable = true ↔ i ≠ .unknown := by
  cases i <;> simp [Instr.assemblable, Instr.kind]

theorem decode_word (i : Instr) (hi : i.assemblable = true) : decode i.word = i := by
  cases i 
  case unknown => simp [Instr.assemblable, Instr.kind] at hi
  case cls => decide
  case ret => decide
  all_goals simp [Instr.word, decode, decodeFamily8, decodeFamilyE, decodeFamilyF]


theorem decodeBytes_bytesOfWord_append (w : Word) (rest : List Byte) :
    decodeBytes (bytesOfWord w ++ rest) = .ok (decode w, rest) := by
  simp [bytesOfWord, decodeBytes, wordOfBytes_bytes]

theorem encodeBytes_eq_word (i : Instr) (hi : i.assemblable = true) : encodeBytes i = some (bytesOfWord i.word) := by
  rw [encodeBytes, encode_eq_word i hi, Option.map_some]

/-! ## The statement -/

/-- Settles O1: both directions of the encoding meet in `Instr.word`, whose fields `encode` or-s into place and `decode`
reads off again. -/
theorem decodeEncodeRoundTrip : Obligations.DecodeEncodeRoundTrip := by
  refine ⟨fun i hi => ⟨i.word, encode_eq_word i hi, decode_word i hi, encodeBytes_eq_word i hi, fun rest => ?_⟩, rfl⟩
  rw [decodeBytes_bytesOfWord_append, decode_word i hi]

end Sys2Proof
end

section
/-! The decoder on every word (`30_encoding.md` R96 to R102, R105, R106; O2, O3, O5): one equation per family, the words that
have no instruction, the word of what is decoded, and the rows of the opcode table a word selects. -/

namespace Sys2Proof

/-! ## One equation per family (R97 to R101) -/

@[simp] theorem decode_of_family0 (w : Word) (hf : familyOf w = 0x0#4) : decode w = decodeFamily0 w := by
  rw [decode, hf]; rfl
@[simp] theorem decode_of_family1 (w : Word) (hf : familyOf w = 0x1#4) : decode w = .jp (addressOf w) := by
  rw [decode, hf]; rfl
@[simp] theorem decode_of_family2 (w : Word) (hf : familyOf w = 0x2#4) : decode w = .call (addressOf w) := by
  rw [decode, hf]; rfl
@[simp] theorem decode_of_family3 (w : Word) (hf : familyOf w = 0x3#4) :
    decode w = .seImm (dstOf w) (immediateByteOf w) := by
  rw [decode, hf]; rfl
@[simp] theorem decode_of_family4 (w : Word) (hf : familyOf w = 0x4#4) :
    decode w = .sneImm (dstOf w) (immediateByteOf w) := by
  rw [decode, hf]; rfl
@[simp] theorem decode_of_family5 (w : Word) (hf : familyOf w = 0x5#4) : decode w = .seReg (dstOf w) (srcOf w) := by
  rw [decode, hf]; rfl
@[simp] theorem decode_of_family7 (w : Word) (hf : familyOf w = 0x7#4) :
    decode w = .addImm (dstOf w) (immediateByteOf w) := by
  rw [decode, hf]; rfl
@[simp] theorem decode_of_family9 (w : Word) (hf : familyOf w = 0x9#4) : decode w = .sneReg (dstOf w) (srcOf w) := by
  rw [decode, hf]; rfl
@[simp] theorem decode_of_familyA (w : Word) (hf : familyOf w = 0xA#4) : decode w = .ldI (addressOf w) := by
  rw [decode, hf]; rfl
@[simp] theorem decode_of_familyB (w : Word) (hf : familyOf w = 0xB#4) : decode w = .jpV0 (addressOf w) := by
  rw [decode, hf]; rfl
@[simp] theorem decode_of_familyC (w : Word) (hf : familyOf w = 0xC#4) :
    decode w = .rnd (dstOf w) (immediateByteOf w) := by
  rw [decode, hf]; rfl
@[simp] theorem decode_of_familyD (w : Word) (hf : familyOf w = 0xD#4) :
    decode w = .drw (dstOf w) (srcOf w) (nibbleOf w) := by
  rw [decode, hf]; rfl
@[simp] theorem decode_of_familyE (w : Word) (hf : familyOf w = 0xE#4) : decode w = decodeFamilyE w := by
  rw [decode, hf]; rfl
@[simp] theorem decode_of_familyF (w : Word) (hf : familyOf w = 0xF#4) : decode w = decodeFamilyF w := by
  rw [decode, hf]; rfl

/-- A word of one of the twelve direct families, where the family number alone gives the kind (R98). -/
def IsDirect (w : Word) : Prop :=
  familyOf w ∈ [0x1#4, 0x2#4, 0x3#4, 0x4#4, 0x5#4, 0x6#4, 0x7#4, 0x9#4, 0xA#4, 0xB#4, 0xC#4, 0xD#4]

/-- The four other families look further at the word (R97, R99 to R101). -/
theorem isDirect_or_table (w : Word) :
    IsDirect w ∨ familyOf w = 0x0#4 ∨ familyOf w = 0x8#4 ∨ familyOf w = 0xE#4 ∨ familyOf w = 0xF#4 := by
  unfold IsDirect
  generalize familyOf w = f
  decide +revert

theorem isDirect_iff (w : Word) : IsDirect w ↔
    familyOf w = 0x1#4 ∨ familyOf w = 0x2#4 ∨ familyOf w = 0x3#4 ∨ familyOf w = 0x4#4 ∨ familyOf w = 0x5#4 ∨
    familyOf w = 0x6#4 ∨ familyOf w = 0x7#4 ∨ familyOf w = 0x9#4 ∨ familyOf w = 0xA#4 ∨ familyOf w = 0xB#4 ∨
    familyOf w = 0xC#4 ∨ familyOf w = 0xD#4 := by
  simp [IsDirect]

/-! ## Words that have no instruction (R102) -/

theorem decodeFamily0_eq_unknown_iff (w : Word) : decodeFamily0 w = .unknown ↔ w ≠ 0x00E0 ∧ w ≠ 0x00EE := by
  unfold decodeFamily0
  split
  next hcls => exact iff_of_false nofun fun h => h.1 hcls
  next hcls =>
    split
    next hret => exact iff_of_false nofun fun h => h.2 hret
    next hret => exact iff_of_true rfl ⟨hcls, hret⟩

theorem decodeFamilyE_eq_unknown_iff (w : Word) :
    decodeFamilyE w = .unknown ↔ immediateByteOf w ∉ [0x9E#8, 0xA1#8] := by
  unfold decodeFamilyE
  iterate 2
    split
    next hlo => simp [hlo]
  simp_all

theorem decodeFamilyF_eq_unknown_iff (w : Word) :
    decodeFamilyF w = .unknown ↔
      immediateByteOf w ∉ [0x07#8, 0x0A#8, 0x15#8, 0x18#8, 0x1E#8, 0x29#8, 0x33#8, 0x55#8, 0x65#8] := by
  unfold decodeFamilyF
  iterate 9
    split
    next hlo => simp [hlo]
  simp_all

theorem decode_ne_unknown_of_direct (w : Word) (h : IsDirect w) : decode w ≠ .unknown := by
  rcases (isDirect_iff w).mp h with hf | hf | hf | hf | hf | hf | hf | hf | hf | hf | hf | hf <;>
    simp [hf, decode_of_family6]

/-- Settles O5: each family with a table has its unused slots, and the direct families have none. -/
theorem unknownWordsExactly : Obligations.UnknownWordsExactly := by
  intro w
  rcases isDirect_or_table w with hdirect | hf | hf | hf | hf
  · have hother : familyOf w ≠ 0x0#4 ∧ familyOf w ≠ 0x8#4 ∧ familyOf w ≠ 0xE#4 ∧ familyOf w ≠ 0xF#4 := by
      unfold IsDirect at hdirect
      generalize familyOf w = f at hdirect
      decide +revert
    simp [decode_ne_unknown_of_direct w hdirect, hother]
  · simp [hf, decodeFamily0_eq_unknown_iff]
  · simp [hf, decode_of_family8, decodeFamily8_eq_unknown_iff]
  · simp [hf, decodeFamilyE_eq_unknown_iff]
  · simp [hf, decodeFamilyF_eq_unknown_iff]

/-! ## The word of a decoded instruction -/

theorem and_wordOfNibbles (f x y n f' x' y' n' : BitVec 4) :
    wordOfNibbles f x y n &&& wordOfNibbles f' x' y' n' = wordOfNibbles (f &&& f') (x &&& x') (y &&& y') (n &&& n') := by
  have hfx : (f ++ x) &&& (f' ++ x') = (f &&& f') ++ (x &&& x') := BitVec.and_append
  have hfxy : (f ++ x ++ y) &&& (f' ++ x' ++ y') = (f &&& f') ++ (x &&& x') ++ (y &&& y') := by
    rw [← hfx]; exact BitVec.and_append
  rw [wordOfNibbles, wordOfNibbles, wordOfNibbles, ← hfxy]
  exact BitVec.and_append

/-- A mask of whole nibbles keeps the nibbles where it is all ones and clears the others. -/
theorem and_mask_eq {mask : Word} {mf mx my mn : BitVec 4} (hmask : mask = wordOfNibbles mf mx my mn) (w : Word) :
    w &&& mask = wordOfNibbles (familyOf w &&& mf) (dstOf w &&& mx) (srcOf w &&& my) (nibbleOf w &&& mn) := by
  rw [hmask, ← and_wordOfNibbles, wordOfNibbles_fields]

theorem and_fifteen (x : BitVec 4) : x &&& 15#4 = x := BitVec.and_allOnes

theorem and_F000 (w : Word) : w &&& 0xF000 = wordOfNibbles (familyOf w) 0 0 0 := by
  simpa [and_fifteen] using and_mask_eq (mask := 0xF000) (mf := 15) (mx := 0) (my := 0) (mn := 0) rfl w

theorem and_F00F (w : Word) : w &&& 0xF00F = wordOfNibbles (familyOf w) 0 0 (nibbleOf w) := by
  simpa [and_fifteen] using and_mask_eq (mask := 0xF00F) (mf := 15) (mx := 0) (my := 0) (mn := 15) rfl w

theorem and_F0FF (w : Word) : w &&& 0xF0FF = wordOfNibbles (familyOf w) 0 (srcOf w) (nibbleOf w) := by
  simpa [and_fifteen] using and_mask_eq (mask := 0xF0FF) (mf := 15) (mx := 0) (my := 15) (mn := 15) rfl w

theorem and_FFF0 (w : Word) : w &&& 0xFFF0 = wordOfNibbles (familyOf w) (dstOf w) (srcOf w) 0 := by
  simpa [and_fifteen] using and_mask_eq (mask := 0xFFF0) (mf := 15) (mx := 15) (my := 15) (mn := 0) rfl w

theorem word_decodeFamily0 (w : Word) {i : Instr} (hi : decodeFamily0 w = i) (h : i ≠ .unknown) : i.word = w := by
  unfold decodeFamily0 at hi
  iterate 2
    split at hi
    next hw =>
      subst hi
      exact hw.symm
  exact absurd hi.symm h

theorem word_decodeFamily8 (w : Word) (hf : familyOf w = 0x8) {i : Instr} (hi : decodeFamily8 w = i)
    (h : i ≠ .unknown) : i.word = w := by
  have hw := wordOfNibbles_fields w
  unfold decodeFamily8 at hi
  iterate 9
    split at hi
    next hn =>
      subst hi
      rw [hf, hn] at hw
      exact hw
  exact absurd hi.symm h

theorem word_decodeFamilyE (w : Word) (hf : familyOf w = 0xE) {i : Instr} (hi : decodeFamilyE w = i)
    (h : i ≠ .unknown) : i.word = w := by
  have hw := append_byte_fields w
  unfold decodeFamilyE at hi
  iterate 2
    split at hi
    next hlo =>
      subst hi
      rw [hf, hlo] at hw
      exact hw
  exact absurd hi.symm h

theorem word_decodeFamilyF (w : Word) (hf : familyOf w = 0xF) {i : Instr} (hi : decodeFamilyF w = i)
    (h : i ≠ .unknown) : i.word = w := by
  have hw := append_byte_fields w
  unfold decodeFamilyF at hi
  iterate 9
    split at hi
    next hlo =>
      subst hi
      rw [hf, hlo] at hw
      exact hw
  exact absurd hi.symm h

theorem word_decode_of_direct (w : Word) (h : IsDirect w) :
    (decode w).word = if familyOf w = 5 ∨ familyOf w = 9 then w &&& 0xFFF0 else w := by
  have haddress := append_address_fields w
  have hbyte := append_byte_fields w
  have hnibbles := wordOfNibbles_fields w
  rw [and_FFF0]
  rcases (isDirect_iff w).mp h with hf | hf | hf | hf | hf | hf | hf | hf | hf | hf | hf | hf <;>
    rw [hf] at haddress hbyte hnibbles
  · rw [decode_of_family1 w hf, hf]; exact haddress
  · rw [decode_of_family2 w hf, hf]; exact haddress
  · rw [decode_of_family3 w hf, hf]; exact hbyte
  · rw [decode_of_family4 w hf, hf]; exact hbyte
  · rw [decode_of_family5 w hf, hf]; rfl
  · rw [decode_of_family6 w hf, hf]; exact hbyte
  · rw [decode_of_family7 w hf, hf]; exact hbyte
  · rw [decode_of_family9 w hf, hf]; rfl
  · rw [decode_of_familyA w hf, hf]; exact haddress
  · rw [decode_of_familyB w hf, hf]; exact haddress
  · rw [decode_of_familyC w hf, hf]; exact hbyte
  · rw [decode_of_familyD w hf, hf]; exact hnibbles

/-- The word of what a valid word decodes to: the word itself, but for the ignored nibble of families 5 and 9 (R98). -/
theorem word_decode (w : Word) (h : decode w ≠ .unknown) :
    (decode w).word = if familyOf w = 5 ∨ familyOf w = 9 then w &&& 0xFFF0 else w := by
  rcases isDirect_or_table w with hdirect | hf | hf | hf | hf
  · exact word_decode_of_direct w hdirect
  · simpa [hf] using word_decodeFamily0 w (decode_of_family0 w hf).symm h
  · simpa [hf] using word_decodeFamily8 w hf (decode_of_family8 w hf).symm h
  · simpa [hf] using word_decodeFamilyE w hf (decode_of_familyE w hf).symm h
  · simpa [hf] using word_decodeFamilyF w hf (decode_of_familyF w hf).symm h

/-- Settles O2: `encode` answers `Instr.word`, which for a decoded word is that word again. -/
theorem encodeOfDecodedWord : Obligations.EncodeOfDecodedWord := by
  intro w h
  rw [encode_eq_word _ ((assemblable_iff _).mpr h), word_decode w h]

/-! ## The rows of the opcode table -/

theorem word_eq_iff (a b : Word) :
    a = b ↔ familyOf a = familyOf b ∧ dstOf a = dstOf b ∧ srcOf a = srcOf b ∧ nibbleOf a = nibbleOf b := by
  constructor
  · rintro rfl
    simp
  · rintro ⟨hf, hx, hy, hn⟩
    rw [← wordOfNibbles_fields a, ← wordOfNibbles_fields b, hf, hx, hy, hn]

theorem immediateByteOf_eq_append (w : Word) : immediateByteOf w = srcOf w ++ nibbleOf w :=
  (BitVec.extractLsb'_append_extractLsb'_eq_extractLsb' (start₁ := 0) (len₁ := 4) rfl).symm

theorem familyOf_ofNat (n : Nat) : familyOf (BitVec.ofNat 16 n) = BitVec.ofNat 4 (n / 4096) := by
  apply BitVec.eq_of_toNat_eq
  simp [familyOf, Nat.shiftRight_eq_div_pow]
  omega

theorem dstOf_ofNat (n : Nat) : dstOf (BitVec.ofNat 16 n) = BitVec.ofNat 4 (n / 256) := by
  apply BitVec.eq_of_toNat_eq
  simp [dstOf, Nat.shiftRight_eq_div_pow]
  omega

theorem srcOf_ofNat (n : Nat) : srcOf (BitVec.ofNat 16 n) = BitVec.ofNat 4 (n / 16) := by
  apply BitVec.eq_of_toNat_eq
  simp [srcOf, Nat.shiftRight_eq_div_pow]
  omega

theorem nibbleOf_ofNat (n : Nat) : nibbleOf (BitVec.ofNat 16 n) = BitVec.ofNat 4 n := by
  apply BitVec.eq_of_toNat_eq
  simp [nibbleOf]

/-- A row selects a word when each nibble, masked, is the pattern's (R106). -/
theorem selects_iff (r : OpcodeRow) (w : Word) : r.selects w = true ↔
    familyOf w &&& familyOf r.mask = familyOf r.pattern ∧ dstOf w &&& dstOf r.mask = dstOf r.pattern ∧
    srcOf w &&& srcOf r.mask = srcOf r.pattern ∧ nibbleOf w &&& nibbleOf r.mask = nibbleOf r.pattern := by
  rw [OpcodeRow.selects, beq_iff_eq, and_mask_eq (wordOfNibbles_fields r.mask).symm, word_eq_iff]
  simp

theorem kind_of_selects (w : Word) (r : OpcodeRow) (hr : r ∈ opcodeTable) (hsel : r.selects w = true) :
    (decode w).kind = r.kind := by
  rw [selects_iff] at hsel
  simp only [opcodeTable, List.cons_append, List.nil_append, List.mem_cons, List.not_mem_nil, or_false] at hr
  rcases hr with rfl | rfl | rfl | rfl | rfl | rfl | rfl | rfl | rfl | rfl | rfl | rfl | rfl | rfl | rfl | rfl | rfl |
    rfl | rfl | rfl | rfl | rfl | rfl | rfl | rfl | rfl | rfl | rfl | rfl | rfl | rfl | rfl | rfl | rfl <;>
    simp [familyOf_ofNat, dstOf_ofNat, srcOf_ofNat, nibbleOf_ofNat, and_fifteen] at hsel <;>
    simp [hsel, decode_of_family6, decode_of_family8, decodeFamily0, decodeFamily8, decodeFamilyE, decodeFamilyF,
      immediateByteOf_eq_append, word_eq_iff, familyOf_ofNat, dstOf_ofNat, srcOf_ofNat, nibbleOf_ofNat, Instr.kind]

/-- A valid word is selected by some row: the families' numbers, the used slots of family 8 and the used low bytes of
families E and F all stand in the table. -/
theorem exists_selects (w : Word) (h : decode w ≠ .unknown) : ∃ r ∈ opcodeTable, r.selects w = true := by
  have row {p m : Word} (hr : ∃ r ∈ opcodeTable, r.mask = m ∧ r.pattern = p) (hw : w &&& m = p) :
      ∃ r ∈ opcodeTable, r.selects w = true := by
    obtain ⟨r, hr, hmask, hpattern⟩ := hr
    exact ⟨r, hr, by rw [OpcodeRow.selects, hmask, hpattern, hw, beq_self_eq_true]⟩
  rcases isDirect_or_table w with hdirect | hf | hf | hf | hf
  · refine row ?_ (and_F000 w)
    unfold IsDirect at hdirect
    generalize familyOf w = f at hdirect
    decide +revert
  · rw [decode_of_family0 w hf, ne_eq, decodeFamily0_eq_unknown_iff] at h
    refine row ?_ (w.and_allOnes)
    have hword : w = 0x00E0 ∨ w = 0x00EE := Classical.byContradiction fun hnot => h (not_or.mp hnot)
    obtain rfl | rfl := hword
    · decide
    · decide
  · rw [decode_of_family8 w hf, ne_eq, decodeFamily8_eq_unknown_iff] at h
    refine row ?_ (and_F00F w)
    rw [hf]
    generalize nibbleOf w = n at h
    decide +revert
  · rw [decode_of_familyE w hf, ne_eq, decodeFamilyE_eq_unknown_iff, immediateByteOf_eq_append, Decidable.not_not] at h
    refine row ?_ (and_F0FF w)
    rw [hf]
    generalize srcOf w = y at h
    generalize nibbleOf w = n at h
    decide +revert
  · rw [decode_of_familyF w hf, ne_eq, decodeFamilyF_eq_unknown_iff, immediateByteOf_eq_append, Decidable.not_not] at h
    refine row ?_ (and_F0FF w)
    rw [hf]
    generalize srcOf w = y at h
    generalize nibbleOf w = n at h
    decide +revert

/-- Settles O3: the rows a word selects are all of its decoded kind, and a valid word selects one, so the first row found
gives the kind and nothing found means UNKNOWN. -/
theorem decoderAgreesWithOpcodeTable : Obligations.DecoderAgreesWithOpcodeTable := by
  intro w
  have hkind : (decode w).kind = tableKind w := by
    unfold tableKind
    split
    next r hr => exact kind_of_selects w r (List.mem_of_find?_eq_some hr) (by simpa using List.find?_some hr)
    next hnone =>
      have hno : ∀ r ∈ opcodeTable, ¬ r.selects w = true := List.find?_eq_none.mp hnone
      have hunknown : decode w = .unknown := by
        refine Classical.byContradiction fun hvalid => ?_
        obtain ⟨r, hr, hsel⟩ := exists_selects w hvalid
        exact hno r hr hsel
      rw [hunknown, Instr.kind]
  exact ⟨hkind, fun r hr hsel => (kind_of_selects w r hr hsel).symm.trans hkind⟩

end Sys2Proof
end

section
/-! The encoder on descriptor records (`30_encoding.md` R94, R104; O7) and words written out (O8). -/

namespace Sys2Proof

/-! ## `Encode` on a descriptor record: the checks, one after the other -/

theorem encodeDescriptor_of_checks {d : Descriptor} {base : Word} (hbase : baseWord d.kind = some base)
    (hshape : d.shapeOk = true) (hfields : d.fieldsOk = true) (hrange : d.operandsInRange = true) :
    encodeDescriptor d = .ok (base ||| descriptorBits d) := by
  simp [encodeDescriptor, hbase, hshape, hfields, hrange]

/-- A descriptor that is encoded has passed every check. -/
theorem checks_of_encodeDescriptor {d : Descriptor} {w : Word} (h : encodeDescriptor d = .ok w) :
    (∃ base, baseWord d.kind = some base) ∧ d.shapeOk = true ∧ d.fieldsOk = true ∧ d.operandsInRange = true := by
  unfold encodeDescriptor at h
  split at h
  next => cases h
  next base hbase =>
    cases hshape : d.shapeOk <;> cases hfields : d.fieldsOk <;> cases hrange : d.operandsInRange <;>
      simp [hshape, hfields, hrange] at h
    exact ⟨⟨base, hbase⟩, rfl, rfl, rfl⟩

/-! ## The descriptor of an instruction -/

@[simp] theorem Instr.descriptor_kind (i : Instr) : i.descriptor.kind = i.kind := by
  cases i <;> rfl

theorem setWidth_and_mask (nnn : Address) : nnn.setWidth 16 &&& 0xFFF#16 = nnn.setWidth 16 := by
  apply BitVec.eq_of_toNat_eq
  have hmask : (0xFFF#16).toNat = 2 ^ 12 - 1 := by decide
  rw [BitVec.toNat_and, hmask, Nat.and_two_pow_sub_one_eq_mod, BitVec.toNat_setWidth]
  omega

/-- Both encoders or the same bits into the base word. -/
theorem descriptorBits_descriptor (i : Instr) : descriptorBits i.descriptor = operandBits i := by
  cases i <;> simp [descriptorBits, Instr.descriptor, operandBits, Instr.kind, Kind.shape, setWidth_and_mask]

theorem encodeDescriptor_descriptor (i : Instr) (hi : i.assemblable = true) :
    encodeDescriptor i.descriptor = .ok i.word := by
  have hwf := i.descriptor_wellFormed
  simp only [Descriptor.wellFormed, Bool.and_eq_true] at hwf
  obtain ⟨⟨⟨hshape, hfields⟩, hrange⟩, -⟩ := hwf
  have hword := encode_eq_word i hi
  obtain ⟨base, hbase, hor⟩ := Option.map_eq_some_iff.mp hword
  rw [encodeDescriptor_of_checks (by rwa [Instr.descriptor_kind]) hshape hfields hrange, descriptorBits_descriptor, hor]

/-- Settles O7: an instruction's descriptor passes every check, a descriptor that is encoded has passed them, and the four
kinds of shape Address pass them whatever the address, which is masked. -/
theorem descriptorEncoderAgrees : Obligations.DescriptorEncoderAgrees := by
  refine ⟨fun i hi => ⟨i.word, encode_eq_word i hi, encodeDescriptor_descriptor i hi⟩, ?checked, ?address⟩
  case checked =>
    intro d w h
    obtain ⟨⟨base, hbase⟩, hchecks⟩ := checks_of_encodeDescriptor h
    refine ⟨?_, hchecks⟩
    intro hkind
    rw [hkind] at hbase
    cases hbase
  case address =>
    intro k a hk
    have hbase : ∃ base, baseWord k = some base := by
      cases k <;> cases hk <;> exact ⟨_, rfl⟩
    obtain ⟨base, hbase⟩ := hbase
    refine ⟨base, hbase, encodeDescriptor_of_checks hbase ?_ rfl rfl⟩
    simp [Descriptor.shapeOk, hk]

/-- Settles O8: each word, written bit by bit, decoded by evaluation. -/
theorem specWordsDecode : Obligations.SpecWordsDecode := by
  unfold Obligations.SpecWordsDecode
  decide

end Sys2Proof
end

section
/-! UNKNOWN (`46_unknown.md` R255, R102; O34): the words no row selects, and the no-op. -/

namespace Sys2Proof.Machine

/-! ## Advancing IP and nothing else -/

theorem onlyIp_advance (s : State) (n : Nat) : OnlyIp s (s.advance n) := ⟨rfl, fun _ => rfl⟩

theorem advance_ip_toNat (s : State) (n : Nat) : (s.advance n).ip.toNat = (s.ip.toNat + n) % 65536 := by
  simp

theorem exec_unknown (s : State) : exec .unknown s = .next (s.advance 2) := rfl

theorem decode_eq_unknown_iff_no_row (w : Word) : decode w = .unknown ↔ ∀ r ∈ opcodeTable, r.selects w = false := by
  constructor
  · intro hunknown r hr
    have hvalid : ∀ r ∈ opcodeTable, r.kind ≠ .unknown := by decide
    refine Classical.byContradiction fun hsel => ?_
    have hkind := kind_of_selects w r hr (by simpa using hsel)
    rw [hunknown] at hkind
    exact hvalid r hr hkind.symm
  · intro hno
    refine Classical.byContradiction fun hvalid => ?_
    obtain ⟨r, hr, hsel⟩ := exists_selects w hvalid
    rw [hno r hr] at hsel
    cases hsel

/-- Settles O34: a selected row would give the kind, and the table has no row of kind UNKNOWN; executing UNKNOWN is the
advance of IP alone. -/
theorem unknownIsNoOp : Obligations.UnknownIsNoOp :=
  ⟨decode_eq_unknown_iff_no_row, fun s => ⟨_, exec_unknown s, advance_ip_toNat s 2, onlyIp_advance s 2⟩⟩

end Sys2Proof.Machine
end

section
/-! The fetch (`20_memory.md` R64, R65; O10): the number two bytes spell, and the edges of memory. -/

namespace Sys2Proof.Machine

theorem wordOfBytes_toNat (hi lo : Byte) : (wordOfBytes hi lo).toNat = 256 * hi.toNat + lo.toNat := by
  rw [wordOfBytes, BitVec.toNat_append, ← Nat.shiftLeft_add_eq_or_of_lt lo.isLt, Nat.shiftLeft_eq, Nat.mul_comm]

theorem fetchWord_toNat (s : State) (a : Word) :
    (s.fetchWord a).toNat = 256 * (s.memRead a).toNat + (s.memRead (a + 1)).toNat :=
  wordOfBytes_toNat _ _

theorem memRead_beyond (s : State) (a : Word) (ha : 4096 ≤ a.toNat) : s.memRead a = 0 := read_beyond s.mem a ha

/-- A fetch with both bytes beyond memory reads the word 0. -/
theorem fetchWord_beyond (s : State) (a : Word) (ha : 4096 ≤ a.toNat) (hne : a ≠ 0xFFFF) : s.fetchWord a = 0 := by
  have hnext : 4096 ≤ (a + 1).toNat := by
    have : a.toNat ≠ 0xFFFF := fun hc => hne (BitVec.eq_of_toNat_eq hc)
    rw [BitVec.toNat_add]
    simp
    omega
  rw [State.fetchWord, memRead_beyond s a ha, memRead_beyond s (a + 1) hnext]
  rfl

/-- Settles O10: the word's number is the two bytes', and at each edge the byte beyond memory reads 0. -/
theorem fetchIsBigEndianAndBounded : Obligations.FetchIsBigEndianAndBounded := by
  intro s a
  refine ⟨fetchWord_toNat s a, ?last, ?beyond, ?wrap⟩
  case last =>
    rintro rfl
    rw [fetchWord_toNat, memRead_beyond s (0xFFF + 1) (by decide)]
    rfl
  case beyond =>
    intro ha hne
    rw [fetchWord_beyond s a ha hne]
    exact ⟨rfl, by decide⟩
  case wrap =>
    rintro rfl
    rw [fetchWord_toNat, memRead_beyond s 0xFFFF (by decide)]
    simp

end Sys2Proof.Machine
end

section
/-! Arithmetic, shifts and RND (`42_load_alu.md` R172, R175 to R177, R181 to R185; O15 to O19): the ALU write with a flag and
the one without, and what the ALU answers as numbers. -/

namespace Sys2Proof.Machine

/-! ## The end of an instruction that writes registers -/

/-- An instruction that ends in an ALU write with a flag: the result in V[x] unless x is VF's index, the flag in VF, every
other register kept, IP moved by 2 (R172, D9). -/
theorem done_aluWrite_of_flag (s : State) (op : AluOp) (x : RegIndex) (b : Byte) {f : Bool}
    (hflag : (alu op (s.reg x) b).flag = some f) :
    ∃ t, done 2 (s.aluWrite op x b) = .next t ∧ (x ≠ vf → t.reg x = (alu op (s.reg x) b).result) ∧
      t.reg vf = flagByte f ∧ RegsKeptButFlag x s t ∧ IpAdvances 2 s t ∧ OnlyRegsIp s t := by
  have hreg (r : RegIndex) : (s.aluWrite op x b).reg r =
      if r = vf then flagByte f else if r = x then (alu op (s.reg x) b).result else s.reg r := by
    rw [aluWrite_reg, hflag]
  have hip : (s.aluWrite op x b).ip = s.ip := by rw [aluWrite_frame]
  refine ⟨_, done_eq 2 _, ?result, ?flag, ?kept, ipAdvances_advance 2 hip, onlyRegsIp_aluWrite_advance s op x b 2⟩
  case result =>
    intro hx
    rw [advance_reg, hreg, if_neg hx, if_pos rfl]
  case flag => rw [advance_reg, hreg, if_pos rfl]
  case kept =>
    intro r hr hrf
    rw [advance_reg, hreg, if_neg hrf, if_neg hr]

/-- An instruction that ends in an ALU write with the flag discarded. -/
theorem done_aluWriteNoFlag (s : State) (op : AluOp) (x : RegIndex) (b : Byte) :
    ∃ t, done 2 (s.aluWriteNoFlag op x b) = .next t ∧ t.reg x = (alu op (s.reg x) b).result ∧ RegsKeptBut x s t ∧
      IpAdvances 2 s t ∧ OnlyRegsIp s t := by
  refine ⟨_, done_eq 2 _, ?result, ?kept, ipAdvances_advance 2 rfl, rfl, fun _ => rfl⟩
  case result => rw [advance_reg, aluWriteNoFlag_reg, if_pos rfl]
  case kept =>
    intro r hr
    rw [advance_reg, aluWriteNoFlag_reg, if_neg hr]

/-! ## Flags as numbers -/

theorem flagByte_decide (p : Prop) [Decidable p] : flagByte (decide p) = if p then 1 else 0 := by
  simp [flagByte]

theorem flagByte_toNat (f : Bool) : (flagByte f).toNat = f.toNat := by
  cases f <;> rfl

theorem byte_getLsbD_zero_toNat (b : Byte) : (b.getLsbD 0).toNat = b.toNat % 2 := by
  rw [BitVec.getLsbD, Nat.testBit_zero]
  rcases Nat.mod_two_eq_zero_or_one b.toNat with h | h <;> simp [h]

theorem byte_getLsbD_seven_toNat (b : Byte) : (b.getLsbD 7).toNat = b.toNat / 128 := by
  have hlt : b.toNat / 128 < 2 := by omega
  rw [BitVec.getLsbD, Nat.testBit_eq_decide_div_mod_eq, Nat.mod_eq_of_lt hlt]
  rcases Nat.lt_succ_iff_lt_or_eq.mp hlt with h | h
  · simp [Nat.lt_one_iff.mp h]
  · simp [h]

/-- The difference of two bytes is their difference as integers modulo 256. -/
theorem byte_sub_toNat (a b : Byte) : ((a - b).toNat : Int) = (a.toNat - b.toNat : Int) % 256 := by
  have ha := a.isLt
  have hb := b.isLt
  rw [BitVec.toNat_sub]
  omega

/-! ## The statements -/

/-- Settles O15: the fields of the word give the operands, and ADD Vx, #kk is the ALU's addition without its flag. -/
theorem addImmediateResult : Obligations.AddImmediateResult := by
  intro x kk s
  constructor
  · rw [decode_of_family7 _ (familyOf_append_byte 7#4 x kk), dstOf_append_byte, immediateByteOf_append_byte]
  · obtain ⟨t, hnext, hresult, hframe⟩ := done_aluWriteNoFlag s .add x kk
    refine ⟨t, hnext, ?_, hframe⟩
    rw [hresult]
    exact BitVec.toNat_add _ _

/-- Settles O16: the ALU's addition with its carry. -/
theorem addRegisterResult : Obligations.AddRegisterResult := by
  intro x y s
  obtain ⟨t, hnext, hresult, hflag, hframe⟩ := done_aluWrite_of_flag s .add x (s.reg y) rfl
  refine ⟨t, hnext, fun hx => ?_, ?_, hframe⟩
  · rw [hresult hx]
    exact BitVec.toNat_add _ _
  · rw [hflag]
    exact flagByte_decide _

/-- Settles O17: the ALU's two subtractions, which differ in the order of the operands. -/
theorem subtractResults : Obligations.SubtractResults := by
  intro x y s
  constructor
  · obtain ⟨t, hnext, hresult, hflag, hframe⟩ := done_aluWrite_of_flag s .sub x (s.reg y) rfl
    refine ⟨t, hnext, fun hx => ?_, ?_, hframe⟩
    · rw [hresult hx]
      exact byte_sub_toNat _ _
    · rw [hflag]
      exact flagByte_decide _
  · obtain ⟨t, hnext, hresult, hflag, hframe⟩ := done_aluWrite_of_flag s .subn x (s.reg y) rfl
    refine ⟨t, hnext, fun hx => ?_, ?_, hframe⟩
    · rw [hresult hx]
      exact byte_sub_toNat _ _
    · rw [hflag]
      exact flagByte_decide _

/-- Settles O18: the ALU's two shifts, for whatever the amount is; the second ALU operand is not used. -/
theorem shiftResults : Obligations.ShiftResults := by
  rintro x y s k rfl
  constructor
  · obtain ⟨t, hnext, hresult, hflag, hframe⟩ := done_aluWrite_of_flag s .shr x 0 rfl
    refine ⟨t, hnext, fun hx => ?_, ?_, hframe⟩
    · rw [hresult hx]
      exact (BitVec.toNat_ushiftRight _ _).trans (Nat.shiftRight_eq_div_pow _ _)
    · rw [hflag, flagByte_toNat]
      exact byte_getLsbD_zero_toNat _
  · obtain ⟨t, hnext, hresult, hflag, hframe⟩ := done_aluWrite_of_flag s .shl x 0 rfl
    refine ⟨t, hnext, fun hx => ?_, ?_, hframe⟩
    · rw [hresult hx]
      simp [alu, Nat.shiftLeft_eq]
    · rw [hflag, flagByte_toNat]
      exact byte_getLsbD_seven_toNat _

/-- Settles O19: a masked draw has no bit outside the mask, whatever the draw is. -/
theorem randomResult : Obligations.RandomResult := by
  intro x kk s
  have hexec : exec (.rnd x kk) s = .next (((s.setReg x (s.drawnByte &&& kk)).consumeDraw).advance 2) := rfl
  have hx : (((s.setReg x (s.drawnByte &&& kk)).consumeDraw).advance 2).reg x = s.drawnByte &&& kk := by simp
  refine ⟨_, hexec, hx, ?masked, ?none, ?all, rfl, ?kept, ipAdvances_advance 2 rfl, rfl, fun _ => rfl⟩
  case masked =>
    rw [hx, BitVec.and_assoc, BitVec.and_not_self]
    exact BitVec.and_zero
  case none =>
    rintro rfl
    rw [hx]
    exact BitVec.and_zero
  case all =>
    rintro rfl
    rw [hx]
    exact BitVec.and_allOnes
  case kept =>
    intro r hr
    rw [advance_reg, consumeDraw_reg, setReg_reg_other s x r _ hr]

end Sys2Proof.Machine
end

section
/-! Skips (`41_skip_compare.md` R160 to R163, `44_keys_timers.md` R216, R217; O20, O21). -/

namespace Sys2Proof.Machine

/-- A skip whose condition is `c`: `P` is a proposition under which it holds, `Q` one under which it does not. -/
theorem skipIf_result (s : State) {c : Bool} {P Q : Prop} (hP : P → c = true) (hQ : Q → c = false) :
    ∃ t, skipIf c s = .next t ∧ OnlyIp s t ∧ (P → IpAdvances 4 s t) ∧ (Q → IpAdvances 2 s t) := by
  refine ⟨_, skipIf_eq c s, onlyIp_advance s _, fun hp => ?_, fun hq => ?_⟩
  · rw [hP hp]
    exact ipAdvances_advance 4 rfl
  · rw [hQ hq]
    exact ipAdvances_advance 2 rfl

/-- Settles O20: each compare skip is a skip whose condition is the comparison. -/
theorem compareSkipResults : Obligations.CompareSkipResults := by
  intro x y kk s
  refine ⟨?seImm, ?sneImm, ?seReg, ?sneReg⟩
  case seImm => exact skipIf_result s beq_iff_eq.mpr beq_eq_false_iff_ne.mpr
  case sneImm => exact skipIf_result s bne_iff_ne.mpr (by simp)
  case seReg => exact skipIf_result s beq_iff_eq.mpr beq_eq_false_iff_ne.mpr
  case sneReg => exact skipIf_result s bne_iff_ne.mpr (by simp)

theorem keyPressed_of_held (s : State) {k : Byte} (h : k.toNat ≤ 15 ∧ s.keys.getLsbD k.toNat = true) :
    s.keyPressed k = true := by
  simp [State.keyPressed, h]

/-- A value above 15 names no key (D12). -/
theorem keyPressed_of_not_held (s : State) {k : Byte} (h : 15 < k.toNat ∨ s.keys.getLsbD k.toNat = false) :
    s.keyPressed k = false := by
  rcases h with h | h
  · simp [State.keyPressed, Nat.not_le.mpr h]
  · simp [State.keyPressed, h]

/-- Settles O21: SKP and SKNP are skips on the key test and on its negation. -/
theorem keySkipResults : Obligations.KeySkipResults := by
  intro x s
  constructor
  · exact skipIf_result s (keyPressed_of_held s) (keyPressed_of_not_held s)
  · obtain ⟨t, hnext, honly, hskip, hplain⟩ :=
      skipIf_result s (c := !s.keyPressed (s.reg x)) (fun h => by rw [keyPressed_of_not_held s h]; rfl)
        (fun h => by rw [keyPressed_of_held s h]; rfl)
    exact ⟨t, hnext, honly, hplain, hskip⟩

end Sys2Proof.Machine
end

section
/-! Control transfer (`40_control_flow.md` R143 to R146; O22 to O25). -/

namespace Sys2Proof.Machine

theorem onlyIp_setIp (s : State) (a : Word) : OnlyIp s (s.setIp a) := ⟨rfl, fun _ => rfl⟩

theorem addressOperand_toNat (nnn : Address) : (addressOperand nnn).toNat = nnn.toNat := by
  rw [addressOperand, BitVec.toNat_setWidth]
  omega

/-- nnn + V0 is below 65536, so the sum of R145 does not wrap. -/
theorem addressOperand_add_wideReg_toNat (nnn : Address) (s : State) (x : RegIndex) :
    (addressOperand nnn + s.wideReg x).toNat = nnn.toNat + (s.reg x).toNat := by
  rw [BitVec.toNat_add, addressOperand_toNat, State.wideReg, BitVec.toNat_setWidth]
  omega

theorem exec_jp (nnn : Address) (s : State) : exec (.jp nnn) s = .next (s.setIp (addressOperand nnn)) := rfl

theorem exec_jpV0 (nnn : Address) (s : State) :
    exec (.jpV0 nnn) s = .next (s.setIp (addressOperand nnn + s.wideReg 0)) := rfl

/-- A run that has ended (R16; log 31): IP at `stop`, no key-wait, and the next instruction a jump to `stop`. -/
theorem endedAt_iff (s : State) (stop : Word) : s.endedAt stop = true ↔
    s.ip = stop ∧ s.wait = false ∧ ∃ nnn, s.nextInstr = .jp nnn ∧ addressOperand nnn = stop := by
  unfold State.endedAt State.nextInstr
  constructor
  · intro h
    simp only [Bool.and_eq_true, beq_iff_eq, Bool.not_eq_true'] at h
    obtain ⟨⟨hip, hwait⟩, hjump⟩ := h
    split at hjump
    next nnn hnext => exact ⟨hip, hwait, nnn, by rw [hip, hnext], by simpa using hjump⟩
    next => cases hjump
  · rintro ⟨rfl, hwait, nnn, hnext, htarget⟩
    simp [hwait, hnext, htarget]

/-- Settles O22: the two jumps write IP; an ended run jumps to where it is. -/
theorem jumpResults : Obligations.JumpResults := by
  intro nnn s
  refine ⟨⟨_, exec_jp nnn s, onlyIp_setIp s _, addressOperand_toNat nnn⟩,
    ⟨_, exec_jpV0 nnn s, onlyIp_setIp s _, addressOperand_add_wideReg_toNat nnn s 0⟩, ?ended⟩
  case ended =>
    intro stop hended hsched
    obtain ⟨hip, hwait, target, hnext, htarget⟩ := (endedAt_iff s stop).mp hended
    rw [step_of_coreTurn s (.inl hsched), turnTaken_of_nil s hsched, coreStep_of_run s hwait, hnext, exec_jp, htarget,
      ← hip]
    rfl

/-- Settles O23: CALL with room on the stack and on a full one. -/
theorem callResult : Obligations.CallResult := by
  intro nnn s
  refine ⟨fun hsp => ⟨_, execCall_of_lt nnn s hsp, addressOperand_toNat nnn, ?sp, ?pushed, ?kept, rfl, fun _ => rfl⟩,
    execCall_of_ge nnn s⟩
  case sp =>
    rw [BitVec.toNat_add]
    simp
    omega
  case pushed => simp
  case kept =>
    intro j hj
    exact Vector.getElem?_set_ne hsp (Ne.symm hj)

/-- Settles O24: RET with a return address, on an empty stack, and above the stack. -/
theorem returnResult : Obligations.ReturnResult := by
  intro s
  refine ⟨fun h0 hsp => ?_, execRet_of_zero s, execRet_of_gt s⟩
  obtain ⟨a, htop, hexec⟩ := execRet_of_le s h0 hsp
  have hdec : (s.sp - 1).toNat = s.sp.toNat - 1 := by
    rw [BitVec.toNat_sub]
    simp
    omega
  exact ⟨_, hexec, hdec, by rw [hdec, htop], rfl, fun _ => rfl⟩

/-- Settles O25: a CALL that answers a next state had room on the stack, and the RET finds on top what it pushed. -/
theorem returnUndoesCall : Obligations.ReturnUndoesCall := by
  intro nnn s t u hcall husp hustack
  have hroom : s.sp.toNat < 16 := by
    refine Classical.byContradiction fun hfull => ?_
    rw [execCall_of_ge nnn s (by omega)] at hcall
    cases hcall
  obtain ⟨t', ht', -, hsp, hpushed, -⟩ := (callResult nnn s).1 hroom
  obtain rfl : t' = t := by simpa [ht'] using hcall
  obtain ⟨w, hret, hwsp, htop, -⟩ := (returnResult u).1 (by rw [husp]; omega) (by rw [husp]; omega)
  have hback : w.sp.toNat = s.sp.toNat := by rw [hwsp, husp, hsp, Nat.add_sub_cancel]
  rw [hback, hustack, hpushed] at htop
  exact ⟨w, hret, (Option.some.inj htop).symm, BitVec.eq_of_toNat_eq hback⟩

end Sys2Proof.Machine
end

section
/-! DRW (`43_display.md` R201; O27, O28): one draw, and the same draw again. -/

namespace Sys2Proof.Machine

/-! ## One draw -/

/-- What DRW Vx, Vy, #n draws in a state. -/
def State.sprite (s : State) (x y : RegIndex) (n : BitVec 4) : Canvas :=
  Canvas.drawRows ⟨s.disp, false⟩ s.mem s.i (s.reg x).toNat (s.reg y).toNat n.toNat

theorem exec_drw (x y : RegIndex) (n : BitVec 4) (s : State) : exec (.drw x y n) s =
    .next (((s.setDisplay (s.sprite x y n).disp).setFlag (s.sprite x y n).collision).advance 2) := rfl

/-- A pixel after a draw: flipped exactly where the sprite covers it. -/
theorem sprite_pixel (x y : RegIndex) (n : BitVec 4) (s : State) (px : Fin 64) (py : Fin 32) :
    (s.sprite x y n).disp.pixel px py = true ↔
      (s.disp.pixel px py = true ↔ ¬ s.SpriteCovers (s.reg x).toNat (s.reg y).toNat n.toNat px py) :=
  (drawRows_spec ⟨s.disp, false⟩ s.mem s.i (s.reg x).toNat (s.reg y).toNat n.toNat (by omega)).1 px py

/-- The collision of a draw: some covered pixel was set. -/
theorem sprite_collision (x y : RegIndex) (n : BitVec 4) (s : State) : (s.sprite x y n).collision = true ↔
    ∃ px py, s.SpriteCovers (s.reg x).toNat (s.reg y).toNat n.toNat px py ∧ s.disp.pixel px py = true := by
  have h := (drawRows_spec ⟨s.disp, false⟩ s.mem s.i (s.reg x).toNat (s.reg y).toNat n.toNat (by omega)).2
  rw [State.sprite, h]
  simp only [Bool.false_eq_true, false_or, and_comm]
  rfl

/-- VF after a draw is the collision. -/
theorem drw_flag (x y : RegIndex) (n : BitVec 4) (s : State) :
    (((s.setDisplay (s.sprite x y n).disp).setFlag (s.sprite x y n).collision).advance 2).reg vf =
      flagByte (s.sprite x y n).collision := by
  rw [advance_reg, setFlag_reg, if_pos rfl]

theorem flagByte_eq_one_iff (f : Bool) : flagByte f = 1 ↔ f = true := by
  cases f <;> decide

/-- Settles O27: the drawing loop against the description of the covered pixels, and the frame of the three writes. -/
theorem drawResult : Obligations.DrawResult := by
  intro x y n s
  refine ⟨_, exec_drw x y n s, sprite_pixel x y n s, ?hit, ?miss, rfl, ?kept, ipAdvances_advance 2 rfl, rfl,
    fun _ => rfl⟩
  case hit =>
    intro h
    rw [drw_flag, (sprite_collision x y n s).mpr h]
    rfl
  case miss =>
    intro h
    rw [drw_flag, Bool.eq_false_iff.mpr (mt (sprite_collision x y n s).mp h)]
    rfl
  case kept =>
    intro r hr
    rw [advance_reg, setFlag_reg, if_neg hr, setDisplay_reg]

/-! ## The same draw again -/

/-- A display is its pixels. -/
theorem display_ext {d e : Display} (h : ∀ px py, d.pixel px py = true ↔ e.pixel px py = true) : d = e := by
  apply Vector.ext
  intro row hrow
  apply BitVec.eq_of_getLsbD_eq
  intro col hcol
  exact Bool.eq_iff_iff.mpr (h ⟨col, hcol⟩ ⟨row, hrow⟩)

/-- The state after a draw with the registers put back, from which the same draw runs again. -/
def State.redraw (s : State) (x y : RegIndex) (n : BitVec 4) : State :=
  { ((s.setDisplay (s.sprite x y n).disp).setFlag (s.sprite x y n).collision).advance 2 with v := s.v }

/-- Memory, I and the coordinates are the same, so the sprite covers the same pixels. -/
theorem redraw_pixel (x y : RegIndex) (n : BitVec 4) (s : State) (px : Fin 64) (py : Fin 32) :
    ((s.redraw x y n).sprite x y n).disp.pixel px py = true ↔ s.disp.pixel px py = true := by
  have hfirst : (s.redraw x y n).disp.pixel px py = true ↔ _ := sprite_pixel x y n s px py
  have hsecond : _ ↔ (_ ↔ ¬ s.SpriteCovers (s.reg x).toNat (s.reg y).toNat n.toNat px py) :=
    sprite_pixel x y n (s.redraw x y n) px py
  rw [hsecond, hfirst]
  by_cases hcovers : s.SpriteCovers (s.reg x).toNat (s.reg y).toNat n.toNat px py <;> simp [hcovers]

theorem redraw_collision (x y : RegIndex) (n : BitVec 4) (s : State) :
    ((s.redraw x y n).sprite x y n).collision = true ↔
      ∃ px py, s.SpriteCovers (s.reg x).toNat (s.reg y).toNat n.toNat px py ∧ s.disp.pixel px py = false := by
  have hsecond : _ ↔ ∃ px py, s.SpriteCovers (s.reg x).toNat (s.reg y).toNat n.toNat px py ∧
      (s.sprite x y n).disp.pixel px py = true := sprite_collision x y n (s.redraw x y n)
  rw [hsecond]
  refine exists_congr fun px => exists_congr fun py => and_congr_right fun hcovers => ?_
  rw [sprite_pixel]
  simp [hcovers]

/-- A byte is not 0 when some of its bits, counted from the left, is set. -/
theorem byte_ne_zero_iff (b : Byte) : b ≠ 0 ↔ ∃ col < 8, b.getLsbD (7 - col) = true := by
  constructor
  · intro hb
    refine Classical.byContradiction fun hnone => ?_
    apply hb
    apply BitVec.eq_of_getLsbD_eq
    intro j hj
    have hbit : b.getLsbD (7 - (7 - j)) ≠ true := fun h => hnone ⟨7 - j, by omega, h⟩
    rw [show 7 - (7 - j) = j by omega] at hbit
    simpa using hbit
  · rintro ⟨col, -, hbit⟩ rfl
    simp at hbit

/-- A sprite covers some pixel when one of its bytes is not 0. -/
theorem exists_spriteCovers_iff (s : State) (vx vy n : Nat) :
    (∃ px py, s.SpriteCovers vx vy n px py) ↔ ∃ row < n, s.memRead (s.i + BitVec.ofNat 16 row) ≠ 0 := by
  simp only [byte_ne_zero_iff, State.SpriteCovers]
  constructor
  · rintro ⟨-, -, row, hrow, col, hcol, hbit, -⟩
    exact ⟨row, hrow, col, hcol, hbit⟩
  · rintro ⟨row, hrow, col, hcol, hbit⟩
    exact ⟨.ofNat 64 (vx + col), .ofNat 32 (vy + row), row, hrow, col, hcol, hbit, rfl, rfl⟩

/-- Settles O28: two draws flip each covered pixel twice, and the second meets a set pixel where the first set one. -/
theorem drawTwiceRestoresDisplay : Obligations.DrawTwiceRestoresDisplay := by
  intro x y n s t u hfirst hsecond
  rw [exec_drw] at hfirst
  obtain rfl := Host.Outcome.next.inj hfirst
  change exec (.drw x y n) (s.redraw x y n) = .next u at hsecond
  rw [exec_drw] at hsecond
  obtain rfl := Host.Outcome.next.inj hsecond
  have hflag := drw_flag x y n (s.redraw x y n)
  refine ⟨display_ext (redraw_pixel x y n s), ?flag, ?blank⟩
  case flag => rw [hflag, flagByte_eq_one_iff, redraw_collision]
  case blank =>
    intro hblank
    rw [hflag, flagByte_eq_one_iff, redraw_collision, ← exists_spriteCovers_iff s (s.reg x).toNat (s.reg y).toNat]
    simp only [hblank, and_true]

end Sys2Proof.Machine
end

section
/-! Keys, timers and the host (`44_keys_timers.md` R218 to R229, `43_display.md` R202; O29 to O31, O51, O53 to O55). -/

namespace Sys2Proof.Machine

/-! ## Copies between a register and a timer -/

theorem exec_ldVxDt (x : RegIndex) (s : State) : exec (.ldVxDt x) s = .next ((s.setReg x s.dt).advance 2) := rfl

theorem exec_ldDtVx (x : RegIndex) (s : State) : exec (.ldDtVx x) s = .next ((s.setDelay (s.reg x)).advance 2) := rfl

theorem exec_ldStVx (x : RegIndex) (s : State) : exec (.ldStVx x) s = .next ((s.setSound (s.reg x)).advance 2) := rfl

/-- Settles O29: each copy is one write and the advance of IP. -/
theorem timerCopyResults : Obligations.TimerCopyResults := by
  intro x s
  refine ⟨⟨_, exec_ldVxDt x s, setReg_reg_same s x s.dt, ?kept, ipAdvances_advance 2 rfl, rfl, fun _ => rfl⟩,
    ⟨_, exec_ldDtVx x s, rfl, ipAdvances_advance 2 rfl, rfl, fun _ => rfl⟩,
    ⟨_, exec_ldStVx x s, rfl, ipAdvances_advance 2 rfl, rfl, fun _ => rfl⟩⟩
  case kept =>
    intro r hr
    rw [advance_reg, setReg_reg_other s x r _ hr]

/-! ## `keyDown`, `tickDT` -/

theorem hostStep_keyDown_of_lt {k : Nat} (hk : k < 16) (s : State) :
    hostStep (.keyDown k) s = .next (s.keyDown (BitVec.ofNat 4 k)) := if_pos hk

theorem keyDown_keys (s : State) (k : BitVec 4) : (s.keyDown k).keys = s.keys ||| BitVec.twoPow 16 k.toNat := by
  cases hwait : s.wait
  · rw [keyDown_of_run s k hwait, setKeys_keys]
  · rw [keyDown_of_wait s k hwait, endWait_keys, setReg_keys, setKeys_keys]

theorem keyDown_ip (s : State) (k : BitVec 4) : (s.keyDown k).ip = s.ip := by
  cases hwait : s.wait
  · rw [keyDown_of_run s k hwait, setKeys_ip]
  · rw [keyDown_of_wait s k hwait, endWait_ip, setReg_ip, setKeys_ip]

theorem keyDown_wait (s : State) (k : BitVec 4) : (s.keyDown k).wait = false := by
  cases hwait : s.wait
  · rw [keyDown_of_run s k hwait, setKeys_wait, hwait]
  · rw [keyDown_of_wait s k hwait, endWait_wait]

/-- Setting one bit of a latch: that bit is 1 afterwards, the others are as before. -/
theorem getLsbD_or_twoPow (keys : BitVec 16) (k : Nat) {j : Nat} (hj : j < 16) :
    (keys ||| BitVec.twoPow 16 k).getLsbD j = (decide (j = k) || keys.getLsbD j) := by
  have hbit : (BitVec.twoPow 16 k).getLsbD j = decide (j = k) := by
    rw [BitVec.getLsbD_twoPow, ← Bool.decide_and, decide_eq_decide]
    omega
  rw [BitVec.getLsbD_or, hbit, Bool.or_comm]

theorem keyCode_toNat (k : BitVec 4) : (keyCode k).toNat = k.toNat := by
  rw [keyCode, BitVec.toNat_setWidth]
  omega

/-- Settles O51: an index below 16 is its own four-bit code; the two cases are those of `keyDown_of_run` and
`keyDown_of_wait`. -/
theorem keyDownResult : Obligations.KeyDownResult := by
  intro k s hk
  have hcode : (BitVec.ofNat 4 k).toNat = k := Nat.mod_eq_of_lt hk
  refine ⟨_, hostStep_keyDown_of_lt hk s, ?bits, ?run, ?wait⟩
  case bits =>
    intro j hj
    rw [keyDown_keys, hcode, getLsbD_or_twoPow s.keys k hj]
  case run =>
    intro hwait
    rw [keyDown_of_run s _ hwait]
    rfl
  case wait =>
    intro hwait
    rw [keyDown_of_wait s _ hwait]
    refine ⟨?_, ?_, rfl, rfl⟩
    · rw [endWait_reg, setReg_reg_same, keyCode_toNat, hcode]
    · intro r hr
      rw [endWait_reg, setReg_reg_other _ _ _ _ hr, setKeys_reg]

/-- Settles O53: DT is 0 or can be lowered by 1. -/
theorem tickResult : Obligations.TickResult := by
  intro s
  refine ⟨s.tickDT, rfl, ?_⟩
  unfold State.tickDT
  split
  next hdt => exact ⟨by simp [hdt], rfl⟩
  next hdt =>
    have hpos : 1 ≤ s.dt.toNat := Nat.one_le_iff_ne_zero.mpr fun hc => hdt (BitVec.eq_of_toNat_eq hc)
    refine ⟨?_, rfl⟩
    rw [setDelay_dt, BitVec.toNat_sub_of_le hpos]
    rfl

/-! ## The key-wait -/

theorem exec_ldVxK (x : RegIndex) (s : State) : exec (.ldVxK x) s = .next ((s.beginWait x).advance 2) := rfl

/-- Settles O30: the wait begins with x latched. -/
theorem keyWaitBegins : Obligations.KeyWaitBegins := fun x s =>
  ⟨_, exec_ldVxK x s, rfl, rfl, rfl, ipAdvances_advance 2 rfl, rfl, fun _ => rfl⟩

/-- Settles O31: the waiting core is stuck; `keyDown` delivers to the latched register and changes neither IP nor
memory, so the core then runs the word after LD Vx, K. -/
theorem keyWaitCompletes : Obligations.KeyWaitCompletes := by
  intro x s t k hbegin hk
  rw [exec_ldVxK] at hbegin
  obtain rfl := Host.Outcome.next.inj hbegin
  obtain ⟨u, hkey, -, -, hwaiting⟩ := keyDownResult k ((s.beginWait x).advance 2) hk
  obtain ⟨hcode, hkept, hwait, hframe⟩ := hwaiting rfl
  have hip : u.ip = s.ip + 2 := by rw [hframe]; rfl
  have hfetch (a : Word) : u.fetchWord a = s.fetchWord a := by rw [hframe]; rfl
  refine ⟨coreStep_of_wait _ rfl, u, hkey, hcode, hkept, hwait, hip, ?_⟩
  rw [coreStep_of_run u hwait, State.nextInstr, hip, hfetch]

/-- Settles O55: of the five host actions only `keyDown` writes WAIT, and none writes IP. -/
theorem onlyKeyDownEndsTheWait : Obligations.OnlyKeyDownEndsTheWait := by
  constructor
  · intro a s hwait hindex
    cases a with
    | loadProgram bytes offset => exact ⟨_, rfl, rfl, by simp [State.loadProgram, hwait]⟩
    | keyDown k =>
      have hk := hindex k (.inl rfl)
      exact ⟨_, hostStep_keyDown_of_lt hk s, keyDown_ip s _, by simp [keyDown_wait]⟩
    | keyUp k =>
      have hk := hindex k (.inr rfl)
      exact ⟨_, hostStep_keyUp_of_lt hk s, rfl, by simp [hwait]⟩
    | tickDT =>
      refine ⟨s.tickDT, rfl, ?_⟩
      unfold State.tickDT
      split <;> simp [hwait]
    | readDisplay => exact ⟨_, rfl, rfl, by simp [hwait]⟩
  · intro k s hk
    have hout : ¬ k < Config.numKeys := Nat.not_lt.mpr hk
    exact ⟨if_neg hout, if_neg hout⟩

/-! ## The display read -/

/-- The bits of a packed byte, the leftmost pixel first (D19). -/
def packedBits (d : Display) (n : Nat) : List Bool :=
  (List.range 8).map fun col => d.pixel (.ofNat 64 (8 * n + col)) (.ofNat 32 (n / 8))

theorem packedByte_getLsbD (d : Display) (n : Nat) {col : Nat} (hcol : col < 8) :
    (d.packedByte n).getLsbD (7 - col) = d.pixel (.ofNat 64 (8 * n + col)) (.ofNat 32 (n / 8)) := by
  have hbits : (d.packedByte n).getLsbD (7 - col) =
      (decide (7 - col < 8) && (packedBits d n).getD (7 - (7 - col)) false) :=
    BitVec.getLsbD_ofBoolListBE (bs := packedBits d n)
  have hindex : 7 - (7 - col) = col := by omega
  rw [hbits, hindex, decide_eq_true (by omega), Bool.true_and]
  simp [packedBits, List.getD, hcol]

/-- Settles O54: pixel (px, py) is column px mod 8 of byte 8 py + px / 8. -/
theorem displayReadResult : Obligations.DisplayReadResult := by
  intro s
  refine ⟨rfl, by simp [State.displayOutput, Display.packed], fun px py => ?_⟩
  have hbyte : 8 * py.val + px.val / 8 < 256 := by omega
  have hcol : px.val % 8 < 8 := by omega
  refine ⟨s.disp.packedByte (8 * py.val + px.val / 8), ?_, ?_⟩
  · simp [State.displayOutput, Display.packed, hbyte]
  · rw [packedByte_getLsbD s.disp _ hcol]
    congr 1
    · apply Fin.ext
      rw [fin_ofNat_val]
      omega
    · apply Fin.ext
      rw [fin_ofNat_val]
      omega

end Sys2Proof.Machine
end

section
/-! Index register and memory (`45_index_memory.md` R235 to R240, `20_memory.md` R72, R76; O32, O33, O35 to O37, O40,
O41), and reset (`10_state.md` R33, R40; O43 to O45). -/

namespace Sys2Proof.Machine

/-! ## Writers of I -/

theorem onlyIndexIp_setIndex_advance (s : State) (a : Word) (n : Nat) : OnlyIndexIp s ((s.setIndex a).advance n) :=
  ⟨rfl, fun _ => rfl⟩

/-- An instruction that ends in a write of I. -/
theorem done_setIndex (s : State) {a : Word} {n : Nat} (ha : a.toNat = n) :
    ∃ t, done 2 (s.setIndex a) = .next t ∧ t.i.toNat = n ∧ IpAdvances 2 s t ∧ OnlyIndexIp s t :=
  ⟨_, done_eq 2 _, ha, ipAdvances_advance 2 rfl, onlyIndexIp_setIndex_advance s a 2⟩

theorem add_wideReg_toNat (a : Word) (s : State) (x : RegIndex) :
    (a + s.wideReg x).toNat = (a.toNat + (s.reg x).toNat) % 65536 := by
  rw [BitVec.toNat_add, State.wideReg, BitVec.toNat_setWidth]
  omega

theorem glyphAddress_toNat (b : Byte) : (glyphAddress b).toNat = b.toNat % 16 * 5 := by
  have hlow : (b &&& 0xF).toNat = b.toNat % 16 := Nat.and_two_pow_sub_one_eq_mod b.toNat 4
  rw [glyphAddress, BitVec.toNat_mul, BitVec.toNat_setWidth, hlow]
  simp
  omega

/-- Settles O32: three writes of I, the sum wrapping at 65536. -/
theorem indexResults : Obligations.IndexResults := by
  intro nnn x s
  exact ⟨done_setIndex s (addressOperand_toNat nnn), done_setIndex s (add_wideReg_toNat s.i s x),
    done_setIndex s (glyphAddress_toNat (s.reg x))⟩

/-- Settles O33: the no-op is the advance of IP. -/
theorem bcdStoreIsNoOp : Obligations.BcdStoreIsNoOp := fun _ s =>
  ⟨_, done_eq 2 s, ipAdvances_advance 2 rfl, onlyIp_advance s 2⟩

/-! ## Block transfers -/

theorem exec_stBlock (x : RegIndex) (s : State) :
    exec (.stBlock x) s = .next ((s.storeRegs (x.toNat + 1)).advance 2) := rfl

theorem exec_ldBlock (x : RegIndex) (s : State) :
    exec (.ldBlock x) s = .next ((s.loadRegs (x.toNat + 1)).advance 2) := rfl

theorem add_ofNat_toNat (a : Word) (n : Nat) : (a + BitVec.ofNat 16 n).toNat = (a.toNat + n) % 65536 := by
  simp

/-- Settles O35: the block store's laws at x + 1 registers. -/
theorem blockStoreResult : Obligations.BlockStoreResult := by
  intro x s hwf
  have hip : (s.storeRegs (x.toNat + 1)).ip = s.ip := by rw [storeRegs_frame]
  refine ⟨_, exec_stBlock x s, ?stored, ?kept, ?index, ipAdvances_advance 2 hip, ?frame⟩
  case stored =>
    intro j hj ha
    exact storeRegs_stored s (x.toNat + 1) (by omega) hwf j (by omega) ha
  case kept =>
    intro a ha
    exact storeRegs_kept s (x.toNat + 1) a fun j hj => ha j (by omega)
  case index =>
    rw [advance_i, storeRegs_i, add_ofNat_toNat]
    rfl
  case frame =>
    rw [storeRegs_frame]
    rfl

/-- Settles O36: the block load's laws at x + 1 registers. -/
theorem blockLoadResult : Obligations.BlockLoadResult := by
  intro x s
  have hip : (s.loadRegs (x.toNat + 1)).ip = s.ip := by rw [loadRegs_frame]
  have hreg (r : RegIndex) := loadRegs_reg s (x.toNat + 1) (by omega) r
  refine ⟨_, exec_ldBlock x s, ?loaded, ?kept, ?index, ipAdvances_advance 2 hip, ?frame, ?memory⟩
  case loaded =>
    intro r hr
    rw [advance_reg, hreg, if_pos (by omega)]
  case kept =>
    intro r hr
    rw [advance_reg, hreg, if_neg (by omega)]
  case index =>
    rw [advance_i, loadRegs_i, add_ofNat_toNat]
    rfl
  case frame =>
    rw [loadRegs_frame]
    rfl
  case memory =>
    intro a
    rw [advance_memRead, loadRegs_memRead]

/-- Settles O37: each byte the load reads is one the store put there, and both advance I alike. -/
theorem blockLoadReadsBlockStore : Obligations.BlockLoadReadsBlockStore := by
  intro x s t u hwf hfits hstore hmem hindex
  obtain ⟨t', ht', hstored, -, hti, -⟩ := blockStoreResult x s hwf
  obtain rfl : t' = t := by simpa [ht'] using hstore
  obtain ⟨w, hload, hloaded, -, hwi, -⟩ := blockLoadResult x u
  refine ⟨w, hload, ?_, ?_⟩
  · intro r hr
    have hinside : (s.i + BitVec.ofNat 16 r.toNat).toNat < 4096 := by
      rw [add_ofNat_toNat]
      omega
    have hmemRead (a : Word) : u.memRead a = t'.memRead a := by rw [State.memRead, State.memRead, hmem]
    rw [hloaded r hr, hmemRead, hindex, hstored r.toNat hr hinside]
    simp
  · exact BitVec.eq_of_toNat_eq (by rw [hwi, hti, hindex])

/-- Settles O40: the fetch reads the two stored bytes, high byte first. -/
theorem storedWordIsFetched : Obligations.StoredWordIsFetched := by
  intro x s t j hwf hstore hj hfits
  obtain ⟨t', ht', hstored, -⟩ := blockStoreResult x s hwf
  obtain rfl : t' = t := by simpa [ht'] using hstore
  have hnext : s.i + BitVec.ofNat 16 j + 1 = s.i + BitVec.ofNat 16 (j + 1) := by
    rw [BitVec.ofNat_add, BitVec.add_assoc]
    rfl
  have hinside (k : Nat) (hk : k ≤ j + 1) : (s.i + BitVec.ofNat 16 k).toNat < 4096 := by
    rw [add_ofNat_toNat]
    omega
  rw [State.fetchWord, hnext, hstored j (by omega) (hinside j (by omega)),
    hstored (j + 1) hj (hinside (j + 1) (Nat.le_refl _))]

/-! ## `loadProgram` -/

/-- Settles O41: the law of `Memory.load` at an address of the image and at another. -/
theorem loadProgramResult : Obligations.LoadProgramResult := by
  intro bytes offset s hwf
  refine ⟨_, rfl, ?placed, ?kept, rfl⟩
  case placed =>
    intro j b hb hfits
    have hlt : j < bytes.length := (List.getElem?_eq_some_iff.mp hb).1
    have haddr : (BitVec.ofNat 16 (offset + j)).toNat = offset + j := Nat.mod_eq_of_lt (by omega)
    have hread : (s.loadProgram bytes offset).memRead (BitVec.ofNat 16 (offset + j)) =
        Memory.lookup (Memory.load s.mem offset bytes) (offset + j) := by
      rw [State.memRead, read_below _ _ (by rw [haddr]; exact hfits), haddr]
      rfl
    rw [hread, lookup_load s.mem offset bytes hwf _ hfits, if_pos (by omega)]
    simp [hb]
  case kept =>
    intro a ha
    by_cases hmem : a.toNat < 4096
    · rw [State.memRead, State.memRead, read_below _ a hmem, read_below _ a hmem]
      exact (lookup_load s.mem offset bytes hwf _ hmem).trans (if_neg (by omega))
    · rw [memRead_beyond _ a (by omega), memRead_beyond _ a (by omega)]

/-! ## Reset -/

theorem font_length : font.length = 80 := by decide

/-- Above the font an unlisted byte is 0. -/
theorem unlisted_above_font (a : Nat) (ha : 80 ≤ a) : Memory.unlisted a = 0 := by
  have hnone : font[a]? = none := List.getElem?_eq_none (by rw [font_length]; exact ha)
  simp [Memory.unlisted, List.getD, hnone]

/-- Loading what unlisted addresses read as anyway lists nothing. -/
theorem load_unlisted (offset : Nat) (bytes : List Byte)
    (h : ∀ j b, bytes[j]? = some b → b = Memory.unlisted (offset + j)) : Memory.load [] offset bytes = [] := by
  induction bytes generalizing offset with
  | nil => rfl
  | cons b bs ih =>
    have hput : Memory.put [] offset b = [] := if_pos (h 0 b rfl)
    rw [Memory.load, hput, ite_self]
    refine ih (offset + 1) fun j c hc => ?_
    rw [h (j + 1) c hc]
    congr 1
    omega

/-- Settles O43: nothing is listed and nothing is stacked. -/
theorem resetMeetsInvariant : Obligations.ResetMeetsInvariant := ⟨rfl, by decide⟩

/-- Settles O44: the fields of `State.reset`, read one by one. -/
theorem resetValues : Obligations.ResetValues := by
  refine ⟨?regs, rfl, rfl, rfl, ?stack, rfl, rfl, rfl, rfl, rfl, blank_pixel, rfl, ?memory⟩
  case regs =>
    intro r
    simp [State.reg, State.reset]
  case stack =>
    intro j hj
    simp [State.reset, hj]
  case memory =>
    intro a ha
    by_cases hmem : a.toNat < 4096
    · rw [State.memRead, read_below _ a hmem]
      exact unlisted_above_font a.toNat ha
    · exact memRead_beyond _ a (by omega)

theorem resetWith_memRead (f : List Byte) (hf : f.length = 80) (a : Word) (ha : a.toNat < 4096) :
    (State.resetWith f).memRead a = if a.toNat < 80 then f.getD a.toNat 0 else 0 := by
  have htake : f.take 80 = f := List.take_of_length_le (Nat.le_of_eq hf)
  rw [State.memRead, read_below _ a ha, State.resetWith, htake, lookup_load [] 0 f rfl a.toNat ha]
  by_cases h80 : a.toNat < 80
  · rw [if_pos (by omega), if_pos h80, Nat.sub_zero]
  · rw [if_neg (by omega), if_neg h80]
    exact unlisted_above_font a.toNat (by omega)

/-- Settles O45: the font's bytes are loaded at 0; the default ones are what is read there with nothing listed. -/
theorem resetHoldsTheFont : Obligations.ResetHoldsTheFont := by
  refine ⟨?inside, ?above, ?default, font_length⟩
  case inside =>
    intro f a hf ha
    have hlt : a.toNat < f.length := by omega
    rw [resetWith_memRead f hf a (by omega), if_pos ha]
    simp [hlt]
  case above =>
    intro f a hf ha
    by_cases hmem : a.toNat < 4096
    · rw [resetWith_memRead f hf a hmem, if_neg (by omega)]
    · exact memRead_beyond _ a (by omega)
  case default =>
    have hload : Memory.load [] 0 (font.take 80) = [] := by
      rw [List.take_of_length_le (Nat.le_of_eq font_length)]
      refine load_unlisted 0 font fun j b hb => ?_
      simp [Memory.unlisted, hb]
    rw [State.resetWith, hload]
    rfl

end Sys2Proof.Machine
end

section
/-! The control signals (`30_encoding.md` R107; O46): execution keeps within its kind's row, one lemma per class of
instructions and the four control transfers one by one. -/

namespace Sys2Proof.Machine

/-! ## Instructions that end in `done 2` -/

variable {c : ControlSignals} {i : Instr} {s u : State}

/-- A row with column `pc` = +2: what is to be shown of the state before IP advances. -/
theorem describes_advance (hpc : c.pc = .plus2) (hip : u.ip = s.ip) (hregs : ∀ r, ¬ c.MayWrite i r → u.reg r = s.reg r)
    (hmem : c.mem ≠ .writeBlock → u.mem = s.mem) (hother : ∀ e, e ∉ c.other → e.Kept s u) (hkeys : u.keys = s.keys)
    (hschedule : u.schedule = s.schedule) (hdraws : c.alu ≠ .randomAnd → u.draws = s.draws) :
    c.Describes i s (u.advance 2) where
  pc := by
    rw [hpc, PcUpdate.Describes, advance_ip, hip]
    rfl
  regs := hregs
  mem := hmem
  other := hother
  keys := hkeys
  schedule := hschedule
  draws := hdraws

/-- An instruction that writes general registers only. -/
theorem describes_advance_of_regs (hpc : c.pc = .plus2) (hframe : u = { s with v := u.v })
    (hregs : ∀ r, ¬ c.MayWrite i r → u.reg r = s.reg r) : c.Describes i s (u.advance 2) := by
  have hkept (e : Element) : e.Kept s u := by
    rw [hframe]
    cases e <;> rfl
  rw [hframe] at hregs ⊢
  exact describes_advance hpc rfl hregs (fun _ => rfl) (fun e _ => by rw [← hframe]; exact hkept e) rfl rfl (fun _ => rfl)

/-- A register outside the row's columns is not the destination and, where the row writes VF, not VF. -/
theorem ne_of_not_mayWrite {x r : RegIndex} (hvwr : c.vwr = .dst) (hdst : i.descriptor.dst = some x.toNat)
    (hr : ¬ c.MayWrite i r) : r ≠ x ∧ (c.vfwr = true → r ≠ vf) := by
  rw [ControlSignals.MayWrite, hvwr, hdst, not_or] at hr
  exact ⟨fun h => hr.2 (by rw [h]), fun hvf h => hr.1 ⟨hvf, h⟩⟩

/-- An ALU write whose flag, if it has one, the row lists. -/
theorem describes_aluWrite (op : AluOp) (x : RegIndex) (b : Byte) (hpc : c.pc = .plus2) (hvwr : c.vwr = .dst)
    (hdst : i.descriptor.dst = some x.toNat) (hflag : (alu op (s.reg x) b).flag = none ∨ c.vfwr = true) :
    c.Describes i s ((s.aluWrite op x b).advance 2) := by
  refine describes_advance_of_regs hpc (aluWrite_frame s op x b) fun r hr => ?_
  obtain ⟨hrx, hrf⟩ := ne_of_not_mayWrite hvwr hdst hr
  rw [aluWrite_reg]
  rcases hflag with hflag | hvf
  · rw [hflag]
    exact if_neg hrx
  · cases (alu op (s.reg x) b).flag with
    | none => exact if_neg hrx
    | some f => exact (if_neg (hrf hvf)).trans (if_neg hrx)

theorem describes_setReg (x : RegIndex) (b : Byte) (hpc : c.pc = .plus2) (hvwr : c.vwr = .dst)
    (hdst : i.descriptor.dst = some x.toNat) : c.Describes i s ((s.setReg x b).advance 2) :=
  describes_advance_of_regs hpc rfl fun r hr => setReg_reg_other s x r b (ne_of_not_mayWrite hvwr hdst hr).1

/-- An instruction that writes I only. -/
theorem describes_setIndex (a : Word) (hpc : c.pc = .plus2) (hother : c.other = [.index]) :
    c.Describes i s ((s.setIndex a).advance 2) := by
  refine describes_advance hpc rfl (fun _ _ => rfl) (fun _ => rfl) (fun e he => ?_) rfl rfl (fun _ => rfl)
  rw [hother] at he
  cases e <;> simp_all [Element.Kept]

/-- A skip. -/
theorem describes_skip (b : Bool) (hpc : c.pc = .skip) : c.Describes i s (s.advance (if b then 4 else 2)) where
  pc := by
    rw [hpc]
    cases b
    · exact .inl rfl
    · exact .inr rfl
  regs _ _ := rfl
  mem _ := rfl
  other e _ := by cases e <;> rfl
  keys := rfl
  schedule := rfl
  draws _ := rfl

/-! ## Instructions of one kind -/

theorem describes_cls (s : State) : (controlSignals .cls).Describes .cls s ((s.setDisplay Display.blank).advance 2) := by
  refine describes_advance rfl rfl (fun _ _ => rfl) (fun _ => rfl) (fun e he => ?_) rfl rfl (fun _ => rfl)
  cases e <;> simp_all [Element.Kept, controlSignals]

theorem describes_drw (x y : RegIndex) (n : BitVec 4) (d : Display) (f : Bool) (s : State) :
    (controlSignals .drw).Describes (.drw x y n) s (((s.setDisplay d).setFlag f).advance 2) := by
  refine describes_advance rfl rfl (fun r hr => ?_) (fun _ => rfl) (fun e he => ?_) rfl rfl (fun _ => rfl)
  · have hrf : r ≠ vf := fun h => hr (.inl ⟨rfl, h⟩)
    rw [setFlag_reg, if_neg hrf, setDisplay_reg]
  · cases e <;> simp_all [Element.Kept, controlSignals]

theorem describes_rnd (x : RegIndex) (kk b : Byte) (s : State) :
    (controlSignals .rnd).Describes (.rnd x kk) s (((s.setReg x b).consumeDraw).advance 2) := by
  refine describes_advance rfl rfl (fun r hr => ?_) (fun _ => rfl) (fun e _ => ?_) rfl rfl (fun h => absurd rfl h)
  · exact setReg_reg_other s x r b (ne_of_not_mayWrite (i := .rnd x kk) rfl rfl hr).1
  · cases e <;> rfl

theorem describes_ldVxK (x : RegIndex) (s : State) :
    (controlSignals .ldVxK).Describes (.ldVxK x) s ((s.beginWait x).advance 2) := by
  refine describes_advance rfl rfl (fun _ _ => rfl) (fun _ => rfl) (fun e he => ?_) rfl rfl (fun _ => rfl)
  cases e <;> simp_all [Element.Kept, controlSignals]

theorem describes_ldDtVx (x : RegIndex) (s : State) :
    (controlSignals .ldDtVx).Describes (.ldDtVx x) s ((s.setDelay (s.reg x)).advance 2) := by
  refine describes_advance rfl rfl (fun _ _ => rfl) (fun _ => rfl) (fun e he => ?_) rfl rfl (fun _ => rfl)
  cases e <;> simp_all [Element.Kept, controlSignals]

theorem describes_ldStVx (x : RegIndex) (s : State) :
    (controlSignals .ldStVx).Describes (.ldStVx x) s ((s.setSound (s.reg x)).advance 2) := by
  refine describes_advance rfl rfl (fun _ _ => rfl) (fun _ => rfl) (fun e he => ?_) rfl rfl (fun _ => rfl)
  cases e <;> simp_all [Element.Kept, controlSignals]

theorem describes_stBlock (x : RegIndex) (s : State) :
    (controlSignals .stBlock).Describes (.stBlock x) s ((s.storeRegs (x.toNat + 1)).advance 2) := by
  rw [storeRegs_frame]
  refine describes_advance rfl rfl (fun _ _ => rfl) (fun h => absurd rfl h) (fun e he => ?_) rfl rfl (fun _ => rfl)
  cases e <;> simp_all [Element.Kept, controlSignals]

theorem describes_ldBlock (x : RegIndex) (s : State) :
    (controlSignals .ldBlock).Describes (.ldBlock x) s ((s.loadRegs (x.toNat + 1)).advance 2) := by
  have hframe := loadRegs_frame s (x.toNat + 1)
  refine describes_advance rfl (by rw [hframe]) (fun r hr => ?_) (fun _ => by rw [hframe]) (fun e he => ?_)
    (by rw [hframe]) (by rw [hframe]) (fun _ => by rw [hframe])
  · have habove : ¬ r.toNat ≤ x.toNat := fun h => hr (.inr ⟨x.toNat, rfl, h⟩)
    rw [loadRegs_reg s _ (by omega), if_neg (by omega)]
  · rw [hframe]
    cases e <;> simp_all [Element.Kept, controlSignals]

/-! ## Control transfers -/

theorem describes_jp (nnn : Address) (s : State) :
    (controlSignals .jp).Describes (.jp nnn) s (s.setIp (addressOperand nnn)) where
  pc := congrArg some (addressOperand_toNat nnn).symm
  regs _ _ := rfl
  mem _ := rfl
  other e _ := by cases e <;> rfl
  keys := rfl
  schedule := rfl
  draws _ := rfl

theorem describes_jpV0 (nnn : Address) (s : State) :
    (controlSignals .jpV0).Describes (.jpV0 nnn) s (s.setIp (addressOperand nnn + s.wideReg 0)) where
  pc := ⟨nnn.toNat, rfl, addressOperand_add_wideReg_toNat nnn s 0⟩
  regs _ _ := rfl
  mem _ := rfl
  other e _ := by cases e <;> rfl
  keys := rfl
  schedule := rfl
  draws _ := rfl

/-- CALL that answers a next state had room on the stack. -/
theorem describes_call (nnn : Address) {s t : State} (h : exec (.call nnn) s = .next t) :
    (controlSignals .call).Describes (.call nnn) s t := by
  by_cases hsp : s.sp.toNat < 16
  · rw [execCall_of_lt nnn s hsp] at h
    obtain rfl := Host.Outcome.next.inj h
    refine ⟨congrArg some (addressOperand_toNat nnn).symm, fun _ _ => rfl, fun _ => rfl, fun e he => ?_, rfl, rfl,
      fun _ => rfl⟩
    cases e <;> simp_all [Element.Kept, controlSignals]
  · rw [execCall_of_ge nnn s (Nat.le_of_not_lt hsp)] at h
    cases h

/-- RET that answers a next state had a return address on the stack. -/
theorem describes_ret {s t : State} (h : exec .ret s = .next t) : (controlSignals .ret).Describes .ret s t := by
  rcases Nat.eq_zero_or_pos s.sp.toNat with h0 | h0
  · rw [execRet_of_zero s h0] at h
    cases h
  · by_cases hsp : s.sp.toNat ≤ 16
    · obtain ⟨t', ht', -, htop, hframe, -⟩ := (returnResult s).1 h0 hsp
      obtain rfl : t' = t := by simpa [ht'] using h
      rw [hframe] at htop ⊢
      refine ⟨htop, fun _ _ => rfl, fun _ => rfl, fun e he => ?_, rfl, rfl, fun _ => rfl⟩
      clear h ht' htop hframe
      cases e <;> simp_all [Element.Kept, controlSignals]
    · rw [execRet_of_gt s (Nat.lt_of_not_le hsp)] at h
      cases h

/-! ## The statement -/

/-- Settles O46: each instruction by the lemma of its class. -/
theorem controlSignalsDescribeExec : Obligations.ControlSignalsDescribeExec := by
  intro i s t h
  have hnext {u : State} (hu : exec i s = .next u) (hd : (controlSignals i.kind).Describes i s u) :
      (controlSignals i.kind).Describes i s t := by
    obtain rfl : u = t := Host.Outcome.next.inj (hu.symm.trans h)
    exact hd
  cases i with
  | cls => exact hnext rfl (describes_cls s)
  | ret => exact describes_ret h
  | jp nnn => exact hnext rfl (describes_jp nnn s)
  | call nnn => exact describes_call nnn h
  | seImm x kk => exact hnext rfl (describes_skip _ rfl)
  | sneImm x kk => exact hnext rfl (describes_skip _ rfl)
  | seReg x y => exact hnext rfl (describes_skip _ rfl)
  | ldImm x kk => exact hnext rfl (describes_aluWrite .passB x kk rfl rfl rfl (.inl rfl))
  | addImm x kk => exact hnext rfl (describes_setReg x _ rfl rfl rfl)
  | ldReg x y => exact hnext rfl (describes_aluWrite .passB x (s.reg y) rfl rfl rfl (.inl rfl))
  | or x y => exact hnext rfl (describes_aluWrite .or x (s.reg y) rfl rfl rfl (.inl rfl))
  | and x y => exact hnext rfl (describes_aluWrite .and x (s.reg y) rfl rfl rfl (.inl rfl))
  | xor x y => exact hnext rfl (describes_aluWrite .xor x (s.reg y) rfl rfl rfl (.inl rfl))
  | addReg x y => exact hnext rfl (describes_aluWrite .add x (s.reg y) rfl rfl rfl (.inr rfl))
  | sub x y => exact hnext rfl (describes_aluWrite .sub x (s.reg y) rfl rfl rfl (.inr rfl))
  | shr x y => exact hnext rfl (describes_aluWrite .shr x 0 rfl rfl rfl (.inr rfl))
  | subn x y => exact hnext rfl (describes_aluWrite .subn x (s.reg y) rfl rfl rfl (.inr rfl))
  | shl x y => exact hnext rfl (describes_aluWrite .shl x 0 rfl rfl rfl (.inr rfl))
  | sneReg x y => exact hnext rfl (describes_skip _ rfl)
  | ldI nnn => exact hnext rfl (describes_setIndex _ rfl rfl)
  | jpV0 nnn => exact hnext rfl (describes_jpV0 nnn s)
  | rnd x kk => exact hnext rfl (describes_rnd x kk _ s)
  | drw x y n => exact hnext rfl (describes_drw x y n _ _ s)
  | skp x => exact hnext rfl (describes_skip _ rfl)
  | sknp x => exact hnext rfl (describes_skip _ rfl)
  | ldVxDt x => exact hnext rfl (describes_setReg x s.dt rfl rfl rfl)
  | ldVxK x => exact hnext rfl (describes_ldVxK x s)
  | ldDtVx x => exact hnext rfl (describes_ldDtVx x s)
  | ldStVx x => exact hnext rfl (describes_ldStVx x s)
  | addIVx x => exact hnext rfl (describes_setIndex _ rfl rfl)
  | ldFVx x => exact hnext rfl (describes_setIndex _ rfl rfl)
  | ldBVx x => exact hnext rfl (describes_advance_of_regs rfl rfl fun _ _ => rfl)
  | stBlock x => exact hnext rfl (describes_stBlock x s)
  | ldBlock x => exact hnext rfl (describes_ldBlock x s)
  | unknown => exact hnext rfl (describes_advance_of_regs rfl rfl fun _ _ => rfl)

end Sys2Proof.Machine
end

section
/-! The step and what it keeps (`40_control_flow.md` R140, `44_keys_timers.md` R222, `10_state.md` R29, R38,
`60_exceptions.md` R290, R296; O9, O11, O42, O48 to O50). -/

namespace Sys2Proof.Machine

/-! ## The instructions whose row lists an element of state -/

theorem writeBlock_iff (i : Instr) : (controlSignals i.kind).mem = .writeBlock ↔ ∃ x, i = .stBlock x := by
  cases i <;> simp [Instr.kind, controlSignals]

theorem st_mem_other_iff (i : Instr) : .st ∈ (controlSignals i.kind).other ↔ ∃ x, i = .ldStVx x := by
  cases i <;> simp [Instr.kind, controlSignals]

theorem dt_mem_other_iff (i : Instr) : .dt ∈ (controlSignals i.kind).other ↔ ∃ x, i = .ldDtVx x := by
  cases i <;> simp [Instr.kind, controlSignals]

theorem wait_mem_other_iff (i : Instr) : .wait ∈ (controlSignals i.kind).other ↔ ∃ x, i = .ldVxK x := by
  cases i <;> simp [Instr.kind, controlSignals]

theorem waitReg_mem_other_iff (i : Instr) : .waitReg ∈ (controlSignals i.kind).other ↔ ∃ x, i = .ldVxK x := by
  cases i <;> simp [Instr.kind, controlSignals]

theorem stack_mem_other_iff (i : Instr) : .stack ∈ (controlSignals i.kind).other ↔ ∃ nnn, i = .call nnn := by
  cases i <;> simp [Instr.kind, controlSignals]

theorem sp_mem_other_iff (i : Instr) :
    .sp ∈ (controlSignals i.kind).other ↔ (∃ nnn, i = .call nnn) ∨ i = .ret := by
  cases i <;> simp [Instr.kind, controlSignals]

theorem disp_mem_other_iff (i : Instr) :
    .disp ∈ (controlSignals i.kind).other ↔ i = .cls ∨ ∃ x y n, i = .drw x y n := by
  cases i <;> simp [Instr.kind, controlSignals]

theorem dirty_mem_other_iff (i : Instr) :
    .dirty ∈ (controlSignals i.kind).other ↔ i = .cls ∨ ∃ x y n, i = .drw x y n := by
  cases i <;> simp [Instr.kind, controlSignals]

theorem index_mem_other_iff (i : Instr) : .index ∈ (controlSignals i.kind).other ↔
    i.kind ∈ [.ldI, .addIVx, .ldFVx, .stBlock, .ldBlock] := by
  cases i <;> simp [Instr.kind, controlSignals]

/-! ## The turn of a run -/

/-- Settles O9: the two bytes at IP are the word the core fetches. -/
theorem stepRunsDecodedInstruction : Obligations.StepRunsDecodedInstruction := by
  intro s i hturn hwait hbytes _
  rw [decodeBytes_pair] at hbytes
  have hnext : s.nextInstr = i := congrArg Prod.fst (Except.ok.inj hbytes)
  have hstep : step s = exec i s.turnTaken := by
    rw [step_of_coreTurn s hturn, coreStep_of_run s.turnTaken hwait, ← hnext]
    rfl
  exact ⟨hstep, fun hsched => by rw [hstep, turnTaken_of_nil s hsched]⟩

/-- Settles O11: the gate of the key-wait, and the head of the schedule. -/
theorem waitingCoreIsStuckAndHostActs : Obligations.WaitingCoreIsStuckAndHostActs := by
  constructor
  · intro s hturn hwait
    rw [step_of_coreTurn s hturn, coreStep_of_wait s.turnTaken hwait]
  · intro s a rest hsched
    rw [step_of_hostTurn s a rest hsched, State.turnTaken, hsched, List.tail_cons]

/-! ## Where an instruction can stop -/

/-- What CALL answers, by SP. -/
theorem execCall_cases (nnn : Address) (s : State) :
    (s.sp.toNat < 16 ∧ ∃ t, exec (.call nnn) s = .next t ∧ t.sp.toNat = s.sp.toNat + 1) ∨
    (16 ≤ s.sp.toNat ∧ exec (.call nnn) s = .fault .stackOverflow) := by
  obtain ⟨hroom, hfull⟩ := callResult nnn s
  rcases Nat.lt_or_ge s.sp.toNat 16 with hsp | hsp
  · obtain ⟨t, ht, -, htsp, -⟩ := hroom hsp
    exact .inl ⟨hsp, t, ht, htsp⟩
  · exact .inr ⟨hsp, hfull hsp⟩

/-- What RET answers, by SP. -/
theorem execRet_cases (s : State) :
    (0 < s.sp.toNat ∧ s.sp.toNat ≤ 16 ∧ ∃ t, exec .ret s = .next t ∧ t.sp.toNat = s.sp.toNat - 1) ∨
    (s.sp.toNat = 0 ∧ exec .ret s = .fault .stackUnderflow) ∨
    (16 < s.sp.toNat ∧ exec .ret s = .fault .stackPointerOutOfRange) := by
  obtain ⟨htop, hempty, habove⟩ := returnResult s
  rcases Nat.eq_zero_or_pos s.sp.toNat with h0 | h0
  · exact .inr (.inl ⟨h0, hempty h0⟩)
  · rcases Nat.lt_or_ge 16 s.sp.toNat with hsp | hsp
    · exact .inr (.inr ⟨hsp, habove hsp⟩)
    · obtain ⟨t, ht, htsp, -⟩ := htop h0 hsp
      exact .inl ⟨h0, hsp, t, ht, htsp⟩

/-- Every instruction answers a next state, but for CALL and RET where SP stops them. -/
theorem exec_next_or_fault (i : Instr) (s : State) :
    (∃ t, exec i s = .next t) ∨
    ((∃ nnn, i = .call nnn) ∧ 16 ≤ s.sp.toNat ∧ exec i s = .fault .stackOverflow) ∨
    (i = .ret ∧ s.sp.toNat = 0 ∧ exec i s = .fault .stackUnderflow) ∨
    (i = .ret ∧ 16 < s.sp.toNat ∧ exec i s = .fault .stackPointerOutOfRange) := by
  cases i with
  | call nnn =>
    rcases execCall_cases nnn s with ⟨-, t, ht, -⟩ | ⟨hsp, hf⟩
    · exact .inl ⟨t, ht⟩
    · exact .inr (.inl ⟨⟨nnn, rfl⟩, hsp, hf⟩)
  | ret =>
    rcases execRet_cases s with ⟨-, -, t, ht, -⟩ | ⟨hsp, hf⟩ | ⟨hsp, hf⟩
    · exact .inl ⟨t, ht⟩
    · exact .inr (.inr (.inl ⟨rfl, hsp, hf⟩))
    · exact .inr (.inr (.inr ⟨rfl, hsp, hf⟩))
  | _ => exact .inl ⟨_, rfl⟩

theorem exec_ne_refused (i : Instr) (s : State) (r : Refusal) : exec i s ≠ .refused r := by
  intro h
  rcases exec_next_or_fault i s with ⟨t, ht⟩ | ⟨-, -, hf⟩ | ⟨-, -, hf⟩ | ⟨-, -, hf⟩
  · cases ht.symm.trans h
  · cases hf.symm.trans h
  · cases hf.symm.trans h
  · cases hf.symm.trans h

theorem exec_fault_cases {i : Instr} {s : State} {f : Fault} (h : exec i s = .fault f) :
    (f = .stackOverflow ∧ 16 ≤ s.sp.toNat ∧ ∃ nnn, i = .call nnn) ∨
    (f = .stackUnderflow ∧ s.sp.toNat = 0 ∧ i = .ret) ∨
    (f = .stackPointerOutOfRange ∧ 16 < s.sp.toNat ∧ i = .ret) := by
  rcases exec_next_or_fault i s with ⟨t, ht⟩ | ⟨hi, hsp, hf⟩ | ⟨hi, hsp, hf⟩ | ⟨hi, hsp, hf⟩
  · cases ht.symm.trans h
  · exact .inl ⟨Host.Outcome.fault.inj (h.symm.trans hf), hsp, hi⟩
  · exact .inr (.inl ⟨Host.Outcome.fault.inj (h.symm.trans hf), hsp, hi⟩)
  · exact .inr (.inr ⟨Host.Outcome.fault.inj (h.symm.trans hf), hsp, hi⟩)

/-- Settles O49: only CALL and RET can stop, each as SP says. -/
theorem execStopsOnlyOnTheStack : Obligations.ExecStopsOnlyOnTheStack := by
  intro i s
  refine ⟨exec_ne_refused i s, fun f => ⟨exec_fault_cases, ?stops⟩, ?inRange⟩
  case stops =>
    rintro (⟨rfl, hsp, nnn, rfl⟩ | ⟨rfl, hsp, rfl⟩ | ⟨rfl, hsp, rfl⟩)
    · exact execCall_of_ge nnn s hsp
    · exact execRet_of_zero s hsp
    · exact execRet_of_gt s hsp
  case inRange =>
    intro hle f h
    rcases exec_fault_cases h with ⟨hf, hsp, hcall⟩ | hempty | ⟨-, hsp, -⟩
    · exact .inl ⟨hf, Nat.le_antisymm hle hsp, hcall⟩
    · exact .inr hempty
    · omega

/-! ## The invariant -/

/-- Memory changes by a block store alone, which keeps it canonical. -/
theorem exec_keeps_wf {i : Instr} {s t : State} (hwf : Memory.wf s.mem = true) (h : exec i s = .next t) :
    Memory.wf t.mem = true := by
  by_cases hstore : (controlSignals i.kind).mem = .writeBlock
  · obtain ⟨x, rfl⟩ := (writeBlock_iff i).mp hstore
    obtain rfl := Host.Outcome.next.inj h
    exact storeRegs_wf s _ hwf
  · rw [(controlSignalsDescribeExec i s t h).mem hstore]
    exact hwf

/-- SP changes by CALL and RET alone, which stop where it would leave its range. -/
theorem exec_keeps_sp_le {i : Instr} {s t : State} (hle : s.sp.toNat ≤ 16) (h : exec i s = .next t) :
    t.sp.toNat ≤ 16 := by
  by_cases hsp : .sp ∈ (controlSignals i.kind).other
  · rcases (sp_mem_other_iff i).mp hsp with ⟨nnn, rfl⟩ | rfl
    · rcases execCall_cases nnn s with ⟨hroom, u, hu, husp⟩ | ⟨-, hf⟩
      · obtain rfl : u = t := Host.Outcome.next.inj (hu.symm.trans h)
        omega
      · cases hf.symm.trans h
    · rcases execRet_cases s with ⟨-, -, u, hu, husp⟩ | ⟨-, hf⟩ | ⟨-, hf⟩
      · obtain rfl : u = t := Host.Outcome.next.inj (hu.symm.trans h)
        omega
      · cases hf.symm.trans h
      · cases hf.symm.trans h
  · have hkept : t.sp = s.sp := (controlSignalsDescribeExec i s t h).other .sp hsp
    rw [hkept]
    exact hle

theorem exec_keeps_inv {i : Instr} {s t : State} (hinv : s.Inv) (h : exec i s = .next t) : t.Inv :=
  ⟨exec_keeps_wf hinv.mem_wf h, exec_keeps_sp_le hinv.sp_le h⟩

theorem hostStep_keeps_inv {a : HostAction} {s t : State} (hinv : s.Inv) (h : hostStep a s = .next t) : t.Inv := by
  obtain ⟨hwf, hsp⟩ := hinv
  rcases hostStep_next_cases h with ⟨bytes, offset, -, rfl⟩ | ⟨k, -, -, rfl⟩ | ⟨k, -, -, rfl⟩ | ⟨-, rfl⟩ | ⟨-, rfl⟩
  · exact ⟨wf_load s.mem offset bytes hwf, hsp⟩
  · exact ⟨by rwa [keyDown_mem], by rwa [keyDown_sp]⟩
  · exact ⟨hwf, hsp⟩
  · exact ⟨by rwa [tickDT_mem], by rwa [tickDT_sp]⟩
  · exact ⟨hwf, hsp⟩

theorem turnTaken_inv {s : State} (hinv : s.Inv) : s.turnTaken.Inv := ⟨hinv.mem_wf, hinv.sp_le⟩

/-- Settles O42: a step is an instruction or a host action, and both keep the invariant. -/
theorem stepKeepsInvariant : Obligations.StepKeepsInvariant := by
  intro s t hinv h
  rcases step_next_cases h with ⟨-, -, hexec⟩ | ⟨a, rest, -, hhost⟩
  · exact exec_keeps_inv (turnTaken_inv hinv) hexec
  · exact hostStep_keeps_inv (turnTaken_inv hinv) hhost

/-- Settles O50: the duty on the stack is what CALL and RET need to complete. -/
theorem dutifulCoreAlwaysRuns : Obligations.DutifulCoreAlwaysRuns := by
  intro s hinv hturn hwait hcall hret
  have hstep : step s = exec s.nextInstr s.turnTaken := by
    rw [step_of_coreTurn s hturn, coreStep_of_run s.turnTaken hwait]
    rfl
  have hcompletes : ∃ t, exec s.nextInstr s.turnTaken = .next t := by
    have hle : s.sp.toNat ≤ 16 := hinv.sp_le
    rcases exec_next_or_fault s.nextInstr s.turnTaken with ht | ⟨⟨nnn, hi⟩, hsp, -⟩ | ⟨hi, hsp, -⟩ | ⟨-, hsp, -⟩
    · exact ht
    · exact absurd (hcall nnn hi) (Nat.not_lt.mpr hsp)
    · exact absurd hsp (Nat.ne_of_gt (hret hi))
    · exact absurd hle (Nat.not_le.mpr hsp)
  obtain ⟨t, ht⟩ := hcompletes
  rw [← hstep] at ht
  exact ⟨t, ht, stepKeepsInvariant s t hinv ht⟩

/-! ## VF -/

/-- The kinds that write the flag. -/
theorem vfwr_iff (k : Kind) : (controlSignals k).vfwr = true ↔ k ∈ [.addReg, .sub, .subn, .shr, .shl, .drw] := by
  cases k <;> decide

theorem flagByte_zero_or_one (f : Bool) : flagByte f = 0 ∨ flagByte f = 1 := by
  cases f <;> decide

/-- An ALU write with a flag leaves 0 or 1 in VF. -/
theorem flag_of_done_aluWrite {s t : State} {op : AluOp} {x : RegIndex} {b : Byte} {f : Bool}
    (hflag : (alu op (s.reg x) b).flag = some f) (h : done 2 (s.aluWrite op x b) = .next t) :
    t.reg vf = 0 ∨ t.reg vf = 1 := by
  obtain ⟨t', ht', -, hvf, -⟩ := done_aluWrite_of_flag s op x b hflag
  obtain rfl : t' = t := Host.Outcome.next.inj (ht'.symm.trans h)
  rw [hvf]
  exact flagByte_zero_or_one f

theorem flag_of_exec {i : Instr} {s t : State} (hi : i.kind ∈ [.addReg, .sub, .subn, .shr, .shl, .drw])
    (h : exec i s = .next t) : t.reg vf = 0 ∨ t.reg vf = 1 := by
  cases i with
  | addReg x y => exact flag_of_done_aluWrite (op := .add) rfl h
  | sub x y => exact flag_of_done_aluWrite (op := .sub) rfl h
  | subn x y => exact flag_of_done_aluWrite (op := .subn) rfl h
  | shr x y => exact flag_of_done_aluWrite (op := .shr) rfl h
  | shl x y => exact flag_of_done_aluWrite (op := .shl) rfl h
  | drw x y n =>
    rw [exec_drw] at h
    obtain rfl := Host.Outcome.next.inj h
    rw [drw_flag]
    exact flagByte_zero_or_one _
  | _ => simp [Instr.kind] at hi

theorem dst_lt {i : Instr} {x : Nat} (h : i.descriptor.dst = some x) : x < 16 := by
  have hwf := i.descriptor_wellFormed
  simp only [Descriptor.wellFormed, Descriptor.operandsInRange, Bool.and_eq_true] at hwf
  obtain ⟨⟨-, ⟨⟨⟨hdst, -⟩, -⟩, -⟩⟩, -⟩ := hwf
  simpa [h] using hdst

/-- A row that may write VF without listing the flag has register 15 as its destination: no index is above it. -/
theorem dst_of_mayWrite_vf {c : ControlSignals} {i : Instr} (hvf : c.vfwr ≠ true) (h : c.MayWrite i vf) :
    i.descriptor.dst = some 15 := by
  rcases h with ⟨hc, -⟩ | h
  · exact absurd hc hvf
  · cases hvwr : c.vwr <;> rw [hvwr] at h
    · exact absurd h id
    · exact h
    · obtain ⟨x, hx, hle⟩ := h
      have hlt := dst_lt hx
      have hvfNat : vf.toNat = 15 := rfl
      rw [hx]
      congr 1
      omega

/-- Settles O48: the flag's write, and the registers the kind's row lists. -/
theorem flagIsZeroOrOneAndOnlyWhereNamed : Obligations.FlagIsZeroOrOneAndOnlyWhereNamed := by
  intro i s t h
  refine ⟨fun hi => flag_of_exec hi h, fun hi hchanged => ?_⟩
  have hrow := controlSignalsDescribeExec i s t h
  refine Classical.byContradiction fun hdst => ?_
  exact hchanged (hrow.regs vf fun hmay => hdst (dst_of_mayWrite_vf (mt (vfwr_iff i.kind).mp hi) hmay))

end Sys2Proof.Machine
end

section
/-! Which step changes which element of state (`10_state.md`, `44_keys_timers.md`; O47): first what a host action keeps, then
one lemma per element, each by the agent that took the step. -/

namespace Sys2Proof.Machine

variable {s t : State}

/-! ## What a host action keeps -/

theorem tickDT_frame (s : State) : s.tickDT = { s with dt := s.tickDT.dt } := by
  unfold State.tickDT
  split <;> rfl

theorem keyDown_frame (s : State) (k : BitVec 4) :
    s.keyDown k = { s with keys := (s.keyDown k).keys, v := (s.keyDown k).v, wait := (s.keyDown k).wait } := by
  cases hwait : s.wait
  · rw [keyDown_of_run s k hwait]
    rfl
  · rw [keyDown_of_wait s k hwait]
    rfl

/-- The host writes none of the elements of column `other` but DT, DIRTY and WAIT. -/
theorem hostStep_kept {a : HostAction} (h : hostStep a s = .next t) (e : Element) (he : e ∉ [.dt, .dirty, .wait]) :
    e.Kept s t := by
  rcases hostStep_next_cases h with ⟨bytes, offset, -, rfl⟩ | ⟨k, -, -, rfl⟩ | ⟨k, -, -, rfl⟩ | ⟨-, rfl⟩ | ⟨-, rfl⟩
  · cases e <;> rfl
  · rw [keyDown_frame]
    cases e <;> simp_all [Element.Kept]
  · cases e <;> rfl
  · rw [tickDT_frame]
    cases e <;> simp_all [Element.Kept]
  · cases e <;> simp_all [Element.Kept]

theorem hostStep_ip {a : HostAction} (h : hostStep a s = .next t) : t.ip = s.ip := by
  rcases hostStep_next_cases h with ⟨bytes, offset, -, rfl⟩ | ⟨k, -, -, rfl⟩ | ⟨k, -, -, rfl⟩ | ⟨-, rfl⟩ | ⟨-, rfl⟩
  · rfl
  · exact keyDown_ip s _
  · rfl
  · rw [tickDT_frame]
  · rfl

/-! ## Elements that the core alone writes -/

/-- An element of column `other` that the core's turn changed stands in the row of the instruction at IP. -/
theorem mem_other_of_changed (hexec : exec s.nextInstr s.turnTaken = .next t) (e : Element) (hne : ¬ e.Kept s t) :
    e ∈ (controlSignals s.nextInstr.kind).other := by
  have hrow := controlSignalsDescribeExec _ _ _ hexec
  refine Classical.byContradiction fun he => ?_
  have hkept := hrow.other e he
  exact hne (by cases e <;> exact hkept)

theorem core_of_changed (h : step s = .next t) (e : Element) (he : e ∉ [.dt, .dirty, .wait]) (hne : ¬ e.Kept s t) :
    s.coreTurn ∧ e ∈ (controlSignals s.nextInstr.kind).other := by
  rcases step_next_cases h with ⟨hcore, -, hexec⟩ | ⟨a, rest, -, hhost⟩
  · exact ⟨hcore, mem_other_of_changed hexec e hne⟩
  · have hkept := hostStep_kept hhost e he
    exact absurd (by cases e <;> exact hkept) hne

theorem ip_changed (h : step s = .next t) (hne : t.ip ≠ s.ip) : s.coreTurn := by
  rcases step_next_cases h with ⟨hcore, -⟩ | ⟨a, rest, -, hhost⟩
  · exact hcore
  · exact absurd (hostStep_ip hhost) hne

/-! ## Elements that the host writes too -/

theorem dt_changed (h : step s = .next t) (hne : t.dt ≠ s.dt) :
    (s.coreTurn ∧ ∃ x, s.nextInstr = .ldDtVx x) ∨ ∃ rest, s.schedule = .host .tickDT :: rest := by
  rcases step_next_cases h with ⟨hcore, -, hexec⟩ | ⟨a, rest, hsched, hhost⟩
  · exact .inl ⟨hcore, (dt_mem_other_iff _).mp (mem_other_of_changed hexec .dt hne)⟩
  · rcases hostStep_next_cases hhost with ⟨bytes, offset, -, rfl⟩ | ⟨k, -, -, rfl⟩ | ⟨k, -, -, rfl⟩ | ⟨rfl, -⟩ | ⟨-, rfl⟩
    · exact absurd rfl hne
    · exact absurd (by rw [keyDown_frame]; rfl) hne
    · exact absurd rfl hne
    · exact .inr ⟨rest, hsched⟩
    · exact absurd rfl hne

/-- A tick never raises DT. -/
theorem dt_grown (h : step s = .next t) (hgt : t.dt.toNat > s.dt.toNat) :
    s.coreTurn ∧ ∃ x, s.nextInstr = .ldDtVx x := by
  rcases dt_changed h (fun he => by rw [he] at hgt; exact Nat.lt_irrefl _ hgt) with hcore | ⟨rest, hsched⟩
  · exact hcore
  · rw [step_of_hostTurn s _ rest hsched] at h
    obtain ⟨u, hu, hdt, -⟩ := tickResult s.turnTaken
    obtain rfl : u = t := Host.Outcome.next.inj (hu.symm.trans h)
    rw [turnTaken_dt] at hdt
    omega

theorem keys_changed (h : step s = .next t) (hne : t.keys ≠ s.keys) :
    ∃ k rest, s.schedule = .host (.keyDown k) :: rest ∨ s.schedule = .host (.keyUp k) :: rest := by
  rcases step_next_cases h with ⟨-, -, hexec⟩ | ⟨a, rest, hsched, hhost⟩
  · exact absurd (controlSignalsDescribeExec _ _ _ hexec).keys hne
  · rcases hostStep_next_cases hhost with
      ⟨bytes, offset, -, rfl⟩ | ⟨k, rfl, -⟩ | ⟨k, rfl, -⟩ | ⟨-, rfl⟩ | ⟨-, rfl⟩
    · exact absurd rfl hne
    · exact ⟨k, rest, .inl hsched⟩
    · exact ⟨k, rest, .inr hsched⟩
    · exact absurd (by rw [tickDT_frame]; rfl) hne
    · exact absurd rfl hne

theorem wait_begun (h : step s = .next t) (hs : s.wait = false) (ht : t.wait = true) :
    s.coreTurn ∧ ∃ x, s.nextInstr = .ldVxK x := by
  have hne : t.wait ≠ s.wait := by rw [hs, ht]; decide
  rcases step_next_cases h with ⟨hcore, -, hexec⟩ | ⟨a, rest, -, hhost⟩
  · exact ⟨hcore, (wait_mem_other_iff _).mp (mem_other_of_changed hexec .wait hne)⟩
  · rcases hostStep_next_cases hhost with ⟨bytes, offset, -, rfl⟩ | ⟨k, -, -, rfl⟩ | ⟨k, -, -, rfl⟩ | ⟨-, rfl⟩ | ⟨-, rfl⟩
    · exact absurd rfl hne
    · rw [keyDown_wait] at ht
      cases ht
    · exact absurd rfl hne
    · exact absurd (by rw [tickDT_frame]; rfl) hne
    · exact absurd rfl hne

theorem wait_ended (h : step s = .next t) (hs : s.wait = true) (ht : t.wait = false) :
    ∃ k rest, s.schedule = .host (.keyDown k) :: rest := by
  have hne : t.wait ≠ s.wait := by rw [hs, ht]; decide
  rcases step_next_cases h with ⟨-, hwait, -⟩ | ⟨a, rest, hsched, hhost⟩
  · rw [hs] at hwait
    cases hwait
  · rcases hostStep_next_cases hhost with ⟨bytes, offset, -, rfl⟩ | ⟨k, rfl, -⟩ | ⟨k, -, -, rfl⟩ | ⟨-, rfl⟩ | ⟨-, rfl⟩
    · exact absurd rfl hne
    · exact ⟨k, rest, hsched⟩
    · exact absurd rfl hne
    · exact absurd (by rw [tickDT_frame]; rfl) hne
    · exact absurd rfl hne

/-- The two instructions that write DIRTY set it. -/
theorem exec_dirty {i : Instr} (h : exec i s = .next t) (hs : s.dirty = true) : t.dirty = true := by
  by_cases hi : .dirty ∈ (controlSignals i.kind).other
  · rcases (dirty_mem_other_iff i).mp hi with rfl | ⟨x, y, n, rfl⟩
    · obtain rfl := Host.Outcome.next.inj h
      rfl
    · obtain rfl := Host.Outcome.next.inj h
      rfl
  · have hkept : t.dirty = s.dirty := (controlSignalsDescribeExec i s t h).other .dirty hi
    rw [hkept, hs]

theorem dirty_cleared (h : step s = .next t) (ht : t.dirty = false) (hs : s.dirty = true) :
    ∃ rest, s.schedule = .host .readDisplay :: rest := by
  have hne : t.dirty ≠ s.dirty := by rw [hs, ht]; decide
  rcases step_next_cases h with ⟨-, -, hexec⟩ | ⟨a, rest, hsched, hhost⟩
  · rw [exec_dirty hexec hs] at ht
    cases ht
  · rcases hostStep_next_cases hhost with ⟨bytes, offset, -, rfl⟩ | ⟨k, -, -, rfl⟩ | ⟨k, -, -, rfl⟩ | ⟨-, rfl⟩ | ⟨rfl, -⟩
    · exact absurd rfl hne
    · exact absurd (by rw [keyDown_frame]; rfl) hne
    · exact absurd rfl hne
    · exact absurd (by rw [tickDT_frame]; rfl) hne
    · exact ⟨rest, hsched⟩

theorem mem_changed (h : step s = .next t) (hne : t.mem ≠ s.mem) :
    (s.coreTurn ∧ ∃ x, s.nextInstr = .stBlock x) ∨
      ∃ bytes offset rest, s.schedule = .host (.loadProgram bytes offset) :: rest := by
  rcases step_next_cases h with ⟨hcore, -, hexec⟩ | ⟨a, rest, hsched, hhost⟩
  · refine .inl ⟨hcore, (writeBlock_iff _).mp ?_⟩
    refine Classical.byContradiction fun hmem => ?_
    exact hne ((controlSignalsDescribeExec _ _ _ hexec).mem hmem)
  · rcases hostStep_next_cases hhost with
      ⟨bytes, offset, rfl, -⟩ | ⟨k, -, -, rfl⟩ | ⟨k, -, -, rfl⟩ | ⟨-, rfl⟩ | ⟨-, rfl⟩
    · exact .inr ⟨bytes, offset, rest, hsched⟩
    · exact absurd (keyDown_mem _ _) hne
    · exact absurd rfl hne
    · exact absurd (tickDT_mem _) hne
    · exact absurd rfl hne

/-- `keyDown` writes a register in a key-wait only, and then WAITREG's. -/
theorem keyDown_reg_changed {k : BitVec 4} {r : RegIndex} (hne : (s.keyDown k).reg r ≠ s.reg r) :
    s.wait = true ∧ s.waitReg = r := by
  cases hwait : s.wait
  · rw [keyDown_of_run s k hwait] at hne
    exact absurd rfl hne
  · refine ⟨rfl, ?_⟩
    refine Classical.byContradiction fun hr => ?_
    rw [keyDown_of_wait s k hwait, endWait_reg, setReg_reg_other _ _ _ _ (Ne.symm hr)] at hne
    exact hne rfl

theorem reg_changed (h : step s = .next t) (r : RegIndex) (hne : t.reg r ≠ s.reg r) :
    (s.coreTurn ∧ (controlSignals s.nextInstr.kind).MayWrite s.nextInstr r) ∨
      (s.wait = true ∧ s.waitReg = r ∧ ∃ k rest, s.schedule = .host (.keyDown k) :: rest) := by
  rcases step_next_cases h with ⟨hcore, -, hexec⟩ | ⟨a, rest, hsched, hhost⟩
  · refine .inl ⟨hcore, ?_⟩
    refine Classical.byContradiction fun hmay => ?_
    exact hne ((controlSignalsDescribeExec _ _ _ hexec).regs r hmay)
  · rcases hostStep_next_cases hhost with ⟨bytes, offset, -, rfl⟩ | ⟨k, rfl, -, rfl⟩ | ⟨k, -, -, rfl⟩ | ⟨-, rfl⟩ | ⟨-, rfl⟩
    · exact absurd rfl hne
    · obtain ⟨hwait, hreg⟩ := keyDown_reg_changed hne
      exact .inr ⟨hwait, hreg, k, rest, hsched⟩
    · exact absurd rfl hne
    · exact absurd (by rw [tickDT_frame]; rfl) hne
    · exact absurd rfl hne

/-! ## The statement -/

/-- Settles O47: one lemma per element, and the row of the control table for the elements that the core alone writes. -/
theorem stateChangesOnlyAsTheRulesSay : Obligations.StateChangesOnlyAsTheRulesSay := by
  intro s t h
  have core (e : Element) (he : e ∉ [.dt, .dirty, .wait]) (hne : ¬ e.Kept s t) := core_of_changed h e he hne
  refine ⟨fun hne => ?st, dt_changed h, dt_grown h, keys_changed h, wait_begun h, wait_ended h, fun hne => ?stack,
    fun hne => ?sp, fun hne => ?disp, dirty_cleared h, mem_changed h, fun hne => ?index, ip_changed h,
    fun hne => ?waitReg, reg_changed h⟩
  case st => exact (core .st (by decide) hne).imp_right (st_mem_other_iff _).mp
  case stack => exact (core .stack (by decide) hne).imp_right (stack_mem_other_iff _).mp
  case sp => exact (core .sp (by decide) hne).imp_right (sp_mem_other_iff _).mp
  case disp => exact (core .disp (by decide) hne).imp_right (disp_mem_other_iff _).mp
  case index => exact (core .index (by decide) hne).imp_right (index_mem_other_iff _).mp
  case waitReg => exact (core .waitReg (by decide) hne).imp_right (waitReg_mem_other_iff _).mp

end Sys2Proof.Machine
end

section
/-! The disassembler (`47_disassembler.md` R261 to R268; O56 to O58). -/

namespace Sys2Proof.Machine

/-! ## The walker's equations -/

@[simp] theorem walk_nil (pos : Nat) : walk pos [] = [] := rfl

@[simp] theorem walk_singleton (pos : Nat) (b : Byte) : walk pos [b] = [⟨pos, .raw b⟩] := rfl

theorem walk_of_unknown (pos : Nat) {b0 b1 : Byte} (rest : List Byte)
    (h : (decode (wordOfBytes b0 b1)).kind = .unknown) :
    walk pos (b0 :: b1 :: rest) = ⟨pos, .raw b0⟩ :: walk (pos + 1) (b1 :: rest) := if_pos h

theorem walk_of_valid (pos : Nat) {b0 b1 : Byte} (rest : List Byte)
    (h : ¬ (decode (wordOfBytes b0 b1)).kind = .unknown) :
    walk pos (b0 :: b1 :: rest) = ⟨pos, .insn (decode (wordOfBytes b0 b1))⟩ :: walk (pos + 2) rest := if_neg h

theorem kind_eq_unknown_iff (i : Instr) : i.kind = .unknown ↔ i = .unknown := by
  cases i <;> simp [Instr.kind]

/-! ## The lines cover the buffer -/

theorem walk_sizes (pos : Nat) (buf : List Byte) : ((walk pos buf).map (·.item.size)).sum = buf.length := by
  induction pos, buf using walk.induct with
  | case1 pos => rfl
  | case2 pos b => rfl
  | case3 pos b0 b1 rest h ih =>
    rw [walk_of_unknown pos rest h, List.map_cons, List.sum_cons, ih]
    simp [Item.size]
    omega
  | case4 pos b0 b1 rest h ih =>
    rw [walk_of_valid pos rest h, List.map_cons, List.sum_cons, ih]
    simp [Item.size]
    omega

theorem walk_length_le (pos : Nat) (buf : List Byte) : (walk pos buf).length ≤ buf.length := by
  induction pos, buf using walk.induct with
  | case1 pos => exact Nat.le_refl 0
  | case2 pos b => exact Nat.le_refl 1
  | case3 pos b0 b1 rest h ih =>
    rw [walk_of_unknown pos rest h]
    simpa using ih
  | case4 pos b0 b1 rest h ih =>
    rw [walk_of_valid pos rest h]
    simp
    omega

/-- What a line of the listing of `buf` at `origin` says of the bytes at its address (R265 to R267). -/
def Line.Fits (l : Line) (origin : Nat) (buf : List Byte) : Prop :=
  match l.item with
  | .insn i => i ≠ .unknown ∧ ∃ hi lo, buf[l.address - origin]? = some hi ∧
      buf[l.address - origin + 1]? = some lo ∧ decode (wordOfBytes hi lo) = i
  | .raw b => buf[l.address - origin]? = some b ∧
      ∀ lo, buf[l.address - origin + 1]? = some lo → decode (wordOfBytes b lo) = .unknown

/-- A line that fits the buffer after `pre` fits the whole buffer. -/
theorem Line.Fits.append_left {l : Line} {origin : Nat} {pre buf : List Byte} (h : l.Fits (origin + pre.length) buf)
    (hle : origin + pre.length ≤ l.address) : l.Fits origin (pre ++ buf) := by
  have hindex (k : Nat) : (pre ++ buf)[l.address - origin + k]? = buf[l.address - (origin + pre.length) + k]? := by
    rw [List.getElem?_append_right (by omega)]
    congr 1
    omega
  have hindex0 := hindex 0
  simp only [Nat.add_zero] at hindex0
  unfold Line.Fits at h ⊢
  simpa only [hindex0, hindex 1] using h

/-- The n-th line stands at the sum of the sizes before it and fits the bytes there. -/
theorem walk_line (pos : Nat) (buf : List Byte) : ∀ (n : Nat) (l : Line), (walk pos buf)[n]? = some l →
    l.address = pos + (((walk pos buf).take n).map (·.item.size)).sum ∧ l.Fits pos buf := by
  induction pos, buf using walk.induct with
  | case1 pos =>
    intro n l hl
    simp at hl
  | case2 pos b =>
    intro n l hl
    cases n with
    | zero =>
      obtain rfl : ⟨pos, .raw b⟩ = l := by simpa using hl
      exact ⟨rfl, by simp [Line.Fits]⟩
    | succ n => simp at hl
  | case3 pos b0 b1 rest h ih =>
    intro n l hl
    rw [walk_of_unknown pos rest h] at hl ⊢
    cases n with
    | zero =>
      obtain rfl : ⟨pos, .raw b0⟩ = l := by simpa using hl
      exact ⟨rfl, by simpa [Line.Fits] using (kind_eq_unknown_iff _).mp h⟩
    | succ n =>
      obtain ⟨haddr, hfits⟩ := ih n l (by simpa using hl)
      refine ⟨?_, Line.Fits.append_left (pre := [b0]) hfits (by rw [haddr]; exact Nat.le_add_right _ _)⟩
      rw [haddr, List.take_succ_cons, List.map_cons, List.sum_cons, Item.size, Nat.add_assoc]
  | case4 pos b0 b1 rest h ih =>
    intro n l hl
    rw [walk_of_valid pos rest h] at hl ⊢
    cases n with
    | zero =>
      obtain rfl : ⟨pos, .insn (decode (wordOfBytes b0 b1))⟩ = l := by simpa using hl
      exact ⟨rfl, by simpa [Line.Fits] using mt (kind_eq_unknown_iff _).mpr h⟩
    | succ n =>
      obtain ⟨haddr, hfits⟩ := ih n l (by simpa using hl)
      refine ⟨?_, Line.Fits.append_left (pre := [b0, b1]) hfits (by rw [haddr]; exact Nat.le_add_right _ _)⟩
      rw [haddr, List.take_succ_cons, List.map_cons, List.sum_cons, Item.size, Nat.add_assoc]

/-- Settles O56: the walker's advance is the size of the item it emits. -/
theorem listingCoversTheBuffer : Obligations.ListingCoversTheBuffer := fun buf origin =>
  ⟨walk_sizes origin buf, walk_length_le origin buf, walk_line origin buf⟩

/-! ## The listing of assembled code -/

theorem walk_bytesOfWord (pos : Nat) (i : Instr) (hi : i.assemblable = true) (rest : List Byte) :
    walk pos (bytesOfWord i.word ++ rest) = ⟨pos, .insn i⟩ :: walk (pos + 2) rest := by
  have hdecode : decode (wordOfBytes (i.word.extractLsb' 8 8) (i.word.extractLsb' 0 8)) = i := by
    rw [wordOfBytes_bytes, decode_word i hi]
  have hvalid : i.kind ≠ .unknown := mt (kind_eq_unknown_iff i).mp ((assemblable_iff i).mp hi)
  have hwalk := walk_of_valid pos rest (h := by rw [hdecode]; exact hvalid)
  rwa [hdecode] at hwalk

theorem walk_assembled (is : List Instr) (h : ∀ i ∈ is, i.assemblable = true) (origin k : Nat) :
    walk (origin + 2 * k) (is.flatMap fun i => (encodeBytes i).getD []) =
      (is.zipIdx k).map fun p => ⟨origin + 2 * p.2, .insn p.1⟩ := by
  induction is generalizing k with
  | nil => rfl
  | cons i is ih =>
    obtain ⟨hi, his⟩ := List.forall_mem_cons.mp h
    rw [List.flatMap_cons, encodeBytes_eq_word i hi, Option.getD_some, walk_bytesOfWord _ i hi, List.zipIdx_cons,
      List.map_cons]
    exact congrArg _ (ih his (k + 1))

/-- Settles O57: the two bytes of each word are walked as its instruction. -/
theorem listingOfAssembledCode : Obligations.ListingOfAssembledCode := fun is origin h =>
  walk_assembled is h origin 0

/-! ## Texts -/

theorem walk_zeros (m origin : Nat) :
    walk origin (List.replicate m 0) = (List.range m).map fun j => ⟨origin + j, .raw 0⟩ := by
  induction m generalizing origin with
  | zero => rfl
  | succ m ih =>
    have hstep : walk origin (List.replicate (m + 1) 0) = ⟨origin, .raw 0⟩ :: walk (origin + 1) (List.replicate m 0) := by
      cases m with
      | zero => rfl
      | succ m => exact walk_of_unknown origin (List.replicate m 0) (by decide)
    rw [hstep, ih, List.range_succ_eq_map, List.map_cons, List.map_map]
    simp [Function.comp_def, Nat.add_assoc, Nat.add_comm 1]

/-- Settles O58: the example by evaluation, the texts constructor by constructor, the zeros by induction on their number. -/
theorem listingText : Obligations.ListingText := by
  refine ⟨by decide +kernel, fun i => ?_, walk_zeros⟩
  cases i <;> simp [instrText]

end Sys2Proof.Machine
end

section
/-! What the assembler puts out (`30_encoding.md` R125 to R131; O60): the parser gives only instructions with an encoding, a
line at most one. -/

namespace Sys2Proof.Machine

/-! ## The parser gives no UNKNOWN -/

/-- Where a parser answers an instruction, the instruction has an encoding. -/
def YieldsAssemblable (e : Except AsmError (Instr × List Token)) : Prop :=
  ∀ r, e = .ok r → r.1.assemblable = true

theorem yields_ok {i : Instr} (hi : i.assemblable = true) (ts : List Token) : YieldsAssemblable (.ok (i, ts)) := by
  rintro _ ⟨⟩
  exact hi

theorem yields_error (e : AsmError) : YieldsAssemblable (.error e) := by
  rintro _ ⟨⟩

theorem yields_bind {α : Type} (x : Except AsmError α) {f : α → Except AsmError (Instr × List Token)}
    (h : ∀ a, YieldsAssemblable (f a)) : YieldsAssemblable (x >>= f) := by
  cases x with
  | error e => exact yields_error e
  | ok a => exact h a

variable (c : AsmContext) (ts : List Token)

theorem yields_parseDst {f : RegIndex → Instr} (hf : ∀ x, (f x).assemblable = true) :
    YieldsAssemblable (parseDst c f ts) :=
  yields_bind _ fun r => yields_ok (hf r.1) r.2

theorem yields_parsePseudo {f : RegIndex → Instr} (hf : ∀ x, (f x).assemblable = true) :
    YieldsAssemblable (parsePseudo c f ts) :=
  yields_bind _ fun r => yields_ok (hf r.1) r.2

theorem yields_parseAddr {f : Address → Instr} (hf : ∀ a, (f a).assemblable = true) :
    YieldsAssemblable (parseAddr c f ts) :=
  yields_bind _ fun r => yields_ok (hf r.1) r.2

theorem yields_parseDstSrc {f : RegIndex → RegIndex → Instr} (hf : ∀ x y, (f x y).assemblable = true) :
    YieldsAssemblable (parseDstSrc c f ts) :=
  yields_bind _ fun r => yields_bind _ fun r' => yields_ok (hf r.1 r'.1) r'.2

theorem yields_parseDstByte {byteForm : RegIndex → Byte → Instr} {regForm : Option (RegIndex → RegIndex → Instr)}
    (hbyte : ∀ x kk, (byteForm x kk).assemblable = true)
    (hreg : ∀ f, regForm = some f → ∀ x y, (f x y).assemblable = true) :
    YieldsAssemblable (parseDstByte c byteForm regForm ts) := by
  refine yields_bind _ fun r => ?_
  obtain ⟨x, ts⟩ := r
  cases ts with
  | nil => exact yields_error _
  | cons t rest =>
    dsimp only
    split
    · exact yields_bind _ fun kk => yields_ok (hbyte x kk) rest
    · exact yields_ok (hreg _ rfl x _) rest
    · exact yields_error _

theorem yields_parseJp : YieldsAssemblable (parseJp c ts) := by
  cases ts with
  | nil => exact yields_parseAddr c [] fun _ => rfl
  | cons t rest =>
    rw [parseJp]
    split
    · exact yields_bind _ fun r => yields_ok rfl r.2
    · exact yields_parseAddr c (t :: rest) fun _ => rfl

theorem yields_parseAdd : YieldsAssemblable (parseAdd c ts) := by
  cases ts with
  | nil => exact yields_error _
  | cons t rest =>
    rw [parseAdd]
    split
    · exact yields_parsePseudo c rest fun _ => rfl
    · exact yields_parseDstByte c (t :: rest) (fun _ _ => rfl) (by rintro _ ⟨⟩ _ _; rfl)

theorem yields_parseLd : YieldsAssemblable (parseLd c ts) := by
  cases ts with
  | nil => exact yields_error _
  | cons d rest =>
    rw [parseLd]
    split
    · exact yields_bind _ fun r => yields_ok rfl r.2
    · exact yields_parsePseudo c rest fun _ => rfl
    · exact yields_parsePseudo c rest fun _ => rfl
    · exact yields_parsePseudo c rest fun _ => rfl
    · exact yields_parsePseudo c rest fun _ => rfl
    · split
      · split
        · exact yields_ok rfl _
        · exact yields_ok rfl _
        · split
          · exact yields_ok rfl _
          · exact yields_parseDstByte c _ (fun _ _ => rfl) (by rintro _ ⟨⟩ _ _; rfl)
      · exact yields_error _
    · split
      · exact yields_parsePseudo c rest fun _ => rfl
      · exact yields_error _

theorem yields_parseInstr (m : Mnemonic) : YieldsAssemblable (parseInstr c m ts) := by
  cases m with
  | cls => exact yields_ok rfl ts
  | ret => exact yields_ok rfl ts
  | jp => exact yields_parseJp c ts
  | call => exact yields_parseAddr c ts fun _ => rfl
  | ld => exact yields_parseLd c ts
  | add => exact yields_parseAdd c ts
  | rnd => exact yields_parseDstByte c ts (fun _ _ => rfl) (by rintro _ ⟨⟩)
  | se | sne => exact yields_parseDstByte c ts (fun _ _ => rfl) (by rintro _ ⟨⟩ _ _; rfl)
  | or | and | xor | sub | subn | shr | shl => exact yields_parseDstSrc c ts fun _ _ => rfl
  | skp | sknp => exact yields_parseDst c ts fun _ => rfl
  | drw => exact yields_bind _ fun r => yields_bind _ fun r' => yields_bind _ fun r'' => yields_ok rfl r''.2

/-! ## The bytes of a line and of a text -/

/-- The output grew by the encodings of at most `n` instructions. -/
def Emits (n : Nat) (old new : List Byte) : Prop :=
  ∃ is : List Instr, (∀ i ∈ is, i.assemblable = true) ∧
    new = old ++ (is.flatMap fun i => (encodeBytes i).getD []) ∧ is.length ≤ n

theorem emits_refl (n : Nat) (out : List Byte) : Emits n out out :=
  ⟨[], by simp, by simp, Nat.zero_le n⟩

theorem emits_one {i : Instr} (hi : i.assemblable = true) (out : List Byte) :
    Emits 1 out (out ++ (encodeBytes i).getD []) :=
  ⟨[i], by simpa using hi, by simp, Nat.le_refl 1⟩

theorem Emits.trans {m n : Nat} {a b d : List Byte} (h : Emits m a b) (h' : Emits n b d) : Emits (m + n) a d := by
  obtain ⟨is, his, rfl, hm⟩ := h
  obtain ⟨js, hjs, rfl, hn⟩ := h'
  refine ⟨is ++ js, fun i hi => ?_, by simp, by rw [List.length_append]; omega⟩
  rcases List.mem_append.mp hi with hi | hi
  · exact his i hi
  · exact hjs i hi

theorem eq_ok_of_bind {α β : Type} {x : Except AsmError α} {f : α → Except AsmError β} {b : β}
    (h : x >>= f = .ok b) : ∃ a, x = .ok a ∧ f a = .ok b := by
  cases x with
  | error e => cases h
  | ok a => exact ⟨a, rfl, h⟩

/-- A line emits one instruction at most, and none once it is done. -/
theorem assembleTokens_emits (line : Nat) (here : Address) (fuel : Nat) (done : Bool) (s : AsmState) (ts : List Token)
    {s' : AsmState} (h : assembleTokens line here fuel done s ts = .ok s') :
    Emits (if done then 0 else 1) s.output s'.output := by
  induction fuel generalizing done s ts with
  | zero =>
    obtain rfl : s = s' := Except.ok.inj h
    exact emits_refl _ _
  | succ fuel ih =>
    cases ts with
    | nil =>
      obtain rfl : s = s' := Except.ok.inj h
      exact emits_refl _ _
    | cons t rest =>
      rw [assembleTokens] at h
      split at h
      · have hrest := ih done _ rest h
        exact hrest
      · rename_i m _
        cases done with
        | true => cases h
        | false =>
          obtain ⟨r, hparse, h⟩ := eq_ok_of_bind h
          have hi := yields_parseInstr _ _ m r hparse
          exact (emits_one hi s.output).trans (ih true _ _ h)
      · cases h
      · cases h
      · cases h
      · cases h
      · cases h

theorem assembleLines_emits (line : Nat) (s : AsmState) (ls : List (List Char)) {s' : AsmState}
    (h : assembleLines line s ls = .ok s') : Emits ls.length s.output s'.output := by
  induction ls generalizing line s with
  | nil =>
    obtain rfl : s = s' := Except.ok.inj h
    exact emits_refl _ _
  | cons l ls ih =>
    rw [assembleLines] at h
    obtain ⟨ts, -, h⟩ := eq_ok_of_bind h
    obtain ⟨u, hline, h⟩ := eq_ok_of_bind h
    rw [List.length_cons, Nat.add_comm]
    exact (assembleTokens_emits _ _ _ _ _ _ hline).trans (ih _ u h)

/-- Settles O60: what the lines emit, one after the other; the examples by evaluation. -/
theorem assembledOutputIsInstructions : Obligations.AssembledOutputIsInstructions := by
  refine ⟨fun source origin bytes h => ?_, rfl, rfl, rfl, rfl⟩
  rw [assemble] at h
  cases hlines : assembleLines 0 ⟨origin, [], []⟩ (splitOn (· == '\n') [] source) with
  | error e =>
    rw [hlines] at h
    cases h
  | ok s =>
    rw [hlines] at h
    obtain rfl : s.output = bytes := Except.ok.inj h
    exact assembleLines_emits 0 _ _ hlines

end Sys2Proof.Machine
end

section
/-! The disassembler's text of an instruction read by the tokenizer (`30_encoding.md` R120 to R123, `47_disassembler.md` R262,
R263): its words, and the class of each word. -/

namespace Sys2Proof.Machine

/-! ## The words of a line -/

/-- A text that the tokenizer keeps in one piece and that stays on its line. -/
def IsWord (cs : List Char) : Prop := cs ≠ [] ∧ ∀ c ∈ cs, isSeparator c = false ∧ (c == '\n') = false

/-- No newline ends the line. -/
def OneLine (cs : List Char) : Prop := ∀ c ∈ cs, (c == '\n') = false

theorem IsWord.oneLine {cs : List Char} (h : IsWord cs) : OneLine cs := fun c hc => (h.2 c hc).2

theorem oneLine_append_cons {as bs : List Char} {d : Char} (has : OneLine as) (hd : (d == '\n') = false)
    (hbs : OneLine bs) : OneLine (as ++ d :: bs) :=
  List.forall_mem_append.mpr ⟨has, List.forall_mem_cons.mpr ⟨hd, hbs⟩⟩

/-- The non-empty pieces of a line between separators (R120). -/
def wordsOf (cs : List Char) : List (List Char) := (splitOn isSeparator [] cs).filter (!·.isEmpty)

theorem splitOn_of_not_sep {sep : Char → Bool} (cs acc : List Char) (h : ∀ c ∈ cs, sep c = false) :
    splitOn sep acc cs = [acc ++ cs] := by
  induction cs generalizing acc with
  | nil => rw [splitOn, List.append_nil]
  | cons c cs ih =>
    obtain ⟨hc, hcs⟩ := List.forall_mem_cons.mp h
    rw [splitOn, hc, if_neg Bool.false_ne_true, ih _ hcs, List.append_assoc, List.singleton_append]

theorem splitOn_append_sep {sep : Char → Bool} (cs acc : List Char) {d : Char} (rest : List Char)
    (h : ∀ c ∈ cs, sep c = false) (hd : sep d = true) :
    splitOn sep acc (cs ++ d :: rest) = (acc ++ cs) :: splitOn sep [] rest := by
  induction cs generalizing acc with
  | nil => rw [List.nil_append, splitOn, if_pos hd, List.append_nil]
  | cons c cs ih =>
    obtain ⟨hc, hcs⟩ := List.forall_mem_cons.mp h
    rw [List.cons_append, splitOn, hc, if_neg Bool.false_ne_true, ih _ hcs, List.append_assoc, List.singleton_append]

theorem wordsOf_word {w : List Char} (hw : IsWord w) : wordsOf w = [w] := by
  obtain ⟨hne, hchars⟩ := hw
  rw [wordsOf, splitOn_of_not_sep w [] fun c hc => (hchars c hc).1]
  simp [hne]

theorem wordsOf_word_append {w : List Char} (hw : IsWord w) {d : Char} (hd : isSeparator d = true) (rest : List Char) :
    wordsOf (w ++ d :: rest) = w :: wordsOf rest := by
  obtain ⟨hne, hchars⟩ := hw
  rw [wordsOf, splitOn_append_sep w [] rest (fun c hc => (hchars c hc).1) hd]
  simp [hne, wordsOf]

theorem wordsOf_separator {d : Char} (hd : isSeparator d = true) (rest : List Char) :
    wordsOf (d :: rest) = wordsOf rest := by
  rw [wordsOf, splitOn, if_pos hd]
  rfl

/-! ### Mnemonic and operands -/

theorem text1_toList (m a : String) : (text1 m a).toList = m.toList ++ ' ' :: a.toList := by
  simp [text1]

theorem wordsOf_text1 {m a : String} (hm : IsWord m.toList) (ha : IsWord a.toList) :
    wordsOf (text1 m a).toList = [m.toList, a.toList] := by
  rw [text1_toList, wordsOf_word_append hm rfl, wordsOf_word ha]

theorem text2_toList (m a b : String) : (text2 m a b).toList = m.toList ++ ' ' :: (a.toList ++ ',' :: ' ' :: b.toList) := by
  simp [text2]

theorem wordsOf_text2 {m a b : String} (hm : IsWord m.toList) (ha : IsWord a.toList) (hb : IsWord b.toList) :
    wordsOf (text2 m a b).toList = [m.toList, a.toList, b.toList] := by
  rw [text2_toList, wordsOf_word_append hm rfl, wordsOf_word_append ha rfl, wordsOf_separator rfl, wordsOf_word hb]

/-- The text of DRW: a mnemonic with three operands. -/
def text3 (m a b n : String) : String := text2 m a b ++ ", " ++ n

theorem text3_toList (m a b n : String) : (text3 m a b n).toList =
    m.toList ++ ' ' :: (a.toList ++ ',' :: ' ' :: (b.toList ++ ',' :: ' ' :: n.toList)) := by
  simp [text3, text2]

theorem wordsOf_text3 {m a b n : String} (hm : IsWord m.toList) (ha : IsWord a.toList) (hb : IsWord b.toList)
    (hn : IsWord n.toList) : wordsOf (text3 m a b n).toList = [m.toList, a.toList, b.toList, n.toList] := by
  rw [text3_toList, wordsOf_word_append hm rfl, wordsOf_word_append ha rfl, wordsOf_separator rfl,
    wordsOf_word_append hb rfl, wordsOf_separator rfl, wordsOf_word hn]

/-! ## Hexadecimal digits -/

theorem hexDigit_class : ∀ d < 16, hexValue (hexDigit d) = some d ∧ isSeparator (hexDigit d) = false ∧
    (hexDigit d == '\n') = false ∧ hexDigit d ≠ ':' := by
  decide

theorem digitsValue_single {base : Nat} {c : Char} {d : Nat} (hc : hexValue c = some d) (hd : d < base) :
    digitsValue base [c] = some d := by
  simp [digitsValue, hc, hd]

theorem digitsValue_append {base : Nat} {cs : List Char} {v : Nat} (hcs : digitsValue base cs = some v) {c : Char} {d : Nat}
    (hc : hexValue c = some d) (hd : d < base) : digitsValue base (cs ++ [c]) = some (v * base + d) := by
  unfold digitsValue at hcs ⊢
  split at hcs
  · cases hcs
  · simp [List.foldl_append, hcs, hc, hd]

/-- The digits spell the number; without digits the number is 0. -/
theorem digitsValue_hexDigits (fuel width n : Nat) (hn : n < 16 ^ fuel) :
    (hexDigits fuel width n = [] ∧ n = 0) ∨ digitsValue 16 (hexDigits fuel width n) = some n := by
  induction fuel generalizing width n with
  | zero => exact .inl ⟨rfl, by simpa using hn⟩
  | succ fuel ih =>
    rw [hexDigits]
    split
    next h0 => exact .inl ⟨rfl, h0.1⟩
    next h0 =>
      have hmod : n % 16 < 16 := Nat.mod_lt n (by decide)
      obtain ⟨hvalue, -⟩ := hexDigit_class (n % 16) hmod
      have hdiv : n / 16 < 16 ^ fuel := by
        rw [Nat.pow_succ] at hn
        omega
      right
      rcases ih (width - 1) (n / 16) hdiv with ⟨hnil, hzero⟩ | hsome
      · rw [hnil, List.nil_append, digitsValue_single hvalue hmod]
        congr 1
        omega
      · rw [digitsValue_append hsome hvalue hmod]
        congr 1
        omega

theorem hexDigits_ne_nil (fuel width n : Nat) (hw : 0 < width) : hexDigits (fuel + 1) width n ≠ [] := by
  rw [hexDigits, if_neg (by omega)]
  simp

theorem mem_hexDigits {fuel width n : Nat} {c : Char} (hc : c ∈ hexDigits fuel width n) : ∃ d < 16, c = hexDigit d := by
  induction fuel generalizing width n with
  | zero => cases hc
  | succ fuel ih =>
    rw [hexDigits] at hc
    split at hc
    · cases hc
    · rcases List.mem_append.mp hc with hc | hc
      · exact ih hc
      · exact ⟨n % 16, Nat.mod_lt n (by decide), List.mem_singleton.mp hc⟩

/-- The characters of an immediate, `#0x` and the digits. -/
def immediateChars (width n : Nat) : List Char := '#' :: '0' :: 'x' :: hexDigits (width + n.log2 + 1) width n

theorem immediateText_toList (width n : Nat) : ("#" ++ hexText width n).toList = immediateChars width n := by
  simp [hexText, immediateChars]

theorem isWord_immediateChars (width n : Nat) : IsWord (immediateChars width n) := by
  refine ⟨by simp [immediateChars], fun c hc => ?_⟩
  simp only [immediateChars, List.mem_cons] at hc
  rcases hc with rfl | rfl | rfl | hc
  · decide
  · decide
  · decide
  · obtain ⟨d, hd, rfl⟩ := mem_hexDigits hc
    obtain ⟨-, hsep, hnewline, -⟩ := hexDigit_class d hd
    exact ⟨hsep, hnewline⟩

/-! ## The class of each word -/

theorem immediateValue_hex (width n : Nat) (hw : 0 < width) :
    immediateValue ('0' :: 'x' :: hexDigits (width + n.log2 + 1) width n) = some (n : Int) := by
  have hfits : n < 16 ^ (width + n.log2 + 1) :=
    calc n < 2 ^ (n.log2 + 1) := Nat.lt_log2_self
      _ ≤ 16 ^ (n.log2 + 1) := Nat.pow_le_pow_left (by decide) _
      _ ≤ 16 ^ (width + n.log2 + 1) := Nat.pow_le_pow_right (by decide) (by omega)
  have hvalue : digitsValue 16 (hexDigits (width + n.log2 + 1) width n) = some n :=
    (digitsValue_hexDigits _ width n hfits).resolve_left fun h => hexDigits_ne_nil _ width n hw h.1
  have hliteral : literalValue ('0' :: 'x' :: hexDigits (width + n.log2 + 1) width n) = some n := hvalue
  rw [immediateValue, hliteral]
  · rfl
  · rintro rest ⟨⟩

/-- The tokenizer reads a text as the one token `t` (of line 0). -/
def Reads (text : String) (t : Token) : Prop := IsWord text.toList ∧ classify 0 text.toList = .ok t

theorem classify_immediateChars (width n : Nat) (hw : 0 < width) :
    classify 0 (immediateChars width n) = .ok ⟨immediateChars width n, 0, .immediate n⟩ := by
  simp only [immediateChars, classify, immediateValue_hex width n hw]

theorem reads_immediate (width n : Nat) (hw : 0 < width) :
    Reads ("#" ++ hexText width n) ⟨immediateChars width n, 0, .immediate n⟩ := by
  rw [Reads, immediateText_toList]
  exact ⟨isWord_immediateChars width n, classify_immediateChars width n hw⟩

def byteToken (kk : Byte) : Token := ⟨immediateChars 2 kk.toNat, 0, .immediate kk.toNat⟩

def addressToken (nnn : Address) : Token := ⟨immediateChars 3 nnn.toNat, 0, .immediate nnn.toNat⟩

def countToken (n : BitVec 4) : Token := ⟨immediateChars 1 n.toNat, 0, .immediate n.toNat⟩

def regToken (x : RegIndex) : Token := ⟨['V', hexDigit x.toNat], 0, .keyword (.reg x)⟩

theorem reads_byteText (kk : Byte) : Reads (byteText kk) (byteToken kk) := reads_immediate 2 kk.toNat (by decide)

theorem reads_addressText (nnn : Address) : Reads (addressText nnn) (addressToken nnn) :=
  reads_immediate 3 nnn.toNat (by decide)

theorem reads_countText (n : BitVec 4) : Reads (countText n) (countToken n) := reads_immediate 1 n.toNat (by decide)

theorem reads_regText (x : RegIndex) : Reads (regText x) (regToken x) := by
  have hkeyword : keywordOfText [upperChar 'V', upperChar (hexDigit x.toNat)] = some (.reg x) := by
    decide +revert
  obtain ⟨-, hsep, hnewline, hcolon⟩ := hexDigit_class x.toNat x.isLt
  have htext : (regText x).toList = ['V', hexDigit x.toNat] := by simp [regText]
  rw [Reads, htext]
  refine ⟨⟨by simp, fun c hc => ?_⟩, by simp [classify, hkeyword, hcolon, regToken]⟩
  simp only [List.mem_cons, List.not_mem_nil, or_false] at hc
  rcases hc with rfl | rfl
  · decide
  · exact ⟨hsep, hnewline⟩

/-- A keyword or an identifier written out. -/
theorem reads_literal {text : String} {t : Token} (hne : text.toList ≠ [])
    (hchars : text.toList.all (fun c => !isSeparator c && !(c == '\n')) = true) (ht : classify 0 text.toList = .ok t) :
    Reads text t := by
  refine ⟨⟨hne, fun c hc => ?_⟩, ht⟩
  simpa using List.all_eq_true.mp hchars c hc

/-- The mnemonic as the disassembler writes it. -/
def mnemonicText : Mnemonic → String
  | .cls => "CLS" | .ret => "RET" | .jp => "JP" | .call => "CALL" | .se => "SE" | .sne => "SNE" | .ld => "LD"
  | .add => "ADD" | .or => "OR" | .and => "AND" | .xor => "XOR" | .sub => "SUB" | .subn => "SUBN" | .shr => "SHR"
  | .shl => "SHL" | .rnd => "RND" | .drw => "DRW" | .skp => "SKP" | .sknp => "SKNP"

def mnemonicToken (m : Mnemonic) : Token := ⟨(mnemonicText m).toList, 0, .keyword (.mnemonic m)⟩

theorem reads_mnemonic (m : Mnemonic) : Reads (mnemonicText m) (mnemonicToken m) := by
  cases m <;> exact reads_literal (by decide) (by decide) rfl

/-- An operand that is a keyword, as the disassembler writes it. -/
def keywordToken (text : String) (k : Keyword) : Token := ⟨text.toList, 0, .keyword k⟩

theorem reads_index : Reads "I" (keywordToken "I" .index) := reads_literal (by decide) (by decide) rfl

theorem reads_dt : Reads "DT" (keywordToken "DT" .dt) := reads_literal (by decide) (by decide) rfl

theorem reads_st : Reads "ST" (keywordToken "ST" .st) := reads_literal (by decide) (by decide) rfl

theorem reads_key : Reads "K" (keywordToken "K" .key) := reads_literal (by decide) (by decide) rfl

theorem reads_font : Reads "F" (keywordToken "F" .font) := reads_literal (by decide) (by decide) rfl

theorem reads_bcd : Reads "B" (keywordToken "B" .bcd) := reads_literal (by decide) (by decide) rfl

theorem reads_v0 : Reads "V0" (keywordToken "V0" (.reg 0)) := reads_literal (by decide) (by decide) rfl

/-- To the tokenizer `[I]` is an identifier. -/
def indexMemoryToken : Token := ⟨['[', 'I', ']'], 0, .identifier⟩

theorem reads_indexMemory : Reads "[I]" indexMemoryToken := reads_literal (by decide) (by decide) rfl

/-! ## The forms of text -/

/-- A text on one line that the tokenizer reads as the mnemonic `m` and the operands `ops`. -/
def SpellsTokens (text : String) (m : Mnemonic) (ops : List Token) : Prop :=
  OneLine text.toList ∧ tokenizeLine 0 text.toList = .ok (mnemonicToken m :: ops)

theorem tokenizeLine_eq (line : Nat) (cs : List Char) : tokenizeLine line cs = (wordsOf cs).mapM (classify line) := rfl

theorem spellsTokens_mnemonic (m : Mnemonic) : SpellsTokens (mnemonicText m) m [] := by
  obtain ⟨hm, hmClass⟩ := reads_mnemonic m
  refine ⟨hm.oneLine, ?_⟩
  rw [tokenizeLine_eq, wordsOf_word hm]
  simp [hmClass, bind, Except.bind, pure, Except.pure]

theorem spellsTokens_text1 (m : Mnemonic) {a : String} {ta : Token} (ha : Reads a ta) :
    SpellsTokens (text1 (mnemonicText m) a) m [ta] := by
  obtain ⟨hm, hmClass⟩ := reads_mnemonic m
  obtain ⟨ha, haClass⟩ := ha
  constructor
  · rw [text1_toList]
    exact oneLine_append_cons hm.oneLine rfl ha.oneLine
  · rw [tokenizeLine_eq, wordsOf_text1 hm ha]
    simp [hmClass, haClass, bind, Except.bind, pure, Except.pure]

theorem spellsTokens_text2 (m : Mnemonic) {a b : String} {ta tb : Token} (ha : Reads a ta) (hb : Reads b tb) :
    SpellsTokens (text2 (mnemonicText m) a b) m [ta, tb] := by
  obtain ⟨hm, hmClass⟩ := reads_mnemonic m
  obtain ⟨ha, haClass⟩ := ha
  obtain ⟨hb, hbClass⟩ := hb
  constructor
  · rw [text2_toList]
    exact oneLine_append_cons hm.oneLine rfl
      (oneLine_append_cons ha.oneLine rfl (oneLine_append_cons (as := []) nofun rfl hb.oneLine))
  · rw [tokenizeLine_eq, wordsOf_text2 hm ha hb]
    simp [hmClass, haClass, hbClass, bind, Except.bind, pure, Except.pure]

theorem spellsTokens_regReg (m : Mnemonic) (x y : RegIndex) :
    SpellsTokens (text2 (mnemonicText m) (regText x) (regText y)) m [regToken x, regToken y] :=
  spellsTokens_text2 m (reads_regText x) (reads_regText y)

theorem spellsTokens_regByte (m : Mnemonic) (x : RegIndex) (kk : Byte) :
    SpellsTokens (text2 (mnemonicText m) (regText x) (byteText kk)) m [regToken x, byteToken kk] :=
  spellsTokens_text2 m (reads_regText x) (reads_byteText kk)

theorem spellsTokens_text3 (m : Mnemonic) {a b n : String} {ta tb tn : Token} (ha : Reads a ta) (hb : Reads b tb)
    (hn : Reads n tn) : SpellsTokens (text3 (mnemonicText m) a b n) m [ta, tb, tn] := by
  obtain ⟨hm, hmClass⟩ := reads_mnemonic m
  obtain ⟨ha, haClass⟩ := ha
  obtain ⟨hb, hbClass⟩ := hb
  obtain ⟨hn, hnClass⟩ := hn
  constructor
  · rw [text3_toList]
    exact oneLine_append_cons hm.oneLine rfl
      (oneLine_append_cons ha.oneLine rfl (oneLine_append_cons (as := []) nofun rfl
        (oneLine_append_cons hb.oneLine rfl (oneLine_append_cons (as := []) nofun rfl hn.oneLine))))
  · rw [tokenizeLine_eq, wordsOf_text3 hm ha hb hn]
    simp [hmClass, haClass, hbClass, hnClass, bind, Except.bind, pure, Except.pure]

/-! ## The parser on the operands -/

section
variable (c : AsmContext) (rest : List Token)

@[simp] theorem parseReg_regToken (missing : AsmReason) (x : RegIndex) :
    parseReg c missing (regToken x :: rest) = .ok (x, rest) := rfl

@[simp] theorem parseAddress_addressToken (missing : AsmReason) (nnn : Address) :
    parseAddress c missing (addressToken nnn :: rest) = .ok (nnn, rest) := by
  have hmask : BitVec.ofInt 12 (nnn.toNat : Int) = nnn := by simp
  simp only [parseAddress, addressToken, hmask]

@[simp] theorem byteOfImmediate_toNat (kk : Byte) : byteOfImmediate c (kk.toNat : Int) = .ok kk := by
  have hrange : (0 : Int) ≤ kk.toNat ∧ (kk.toNat : Int) < 256 := by have := kk.isLt; omega
  rw [byteOfImmediate, if_pos hrange]
  simp

@[simp] theorem parseCount_countToken (n : BitVec 4) : parseCount c (countToken n :: rest) = .ok (n, rest) := by
  have hrange : (0 : Int) ≤ n.toNat ∧ (n.toNat : Int) < 16 := by have := n.isLt; omega
  simp only [parseCount, countToken, if_pos hrange]
  simp

@[simp] theorem parseDstByte_byteToken (f : RegIndex → Byte → Instr) (g : Option (RegIndex → RegIndex → Instr))
    (x : RegIndex) (kk : Byte) : parseDstByte c f g (regToken x :: byteToken kk :: rest) = .ok (f x kk, rest) := by
  simp [parseDstByte, byteToken, bind, Except.bind, pure, Except.pure]

@[simp] theorem parseAddr_addressToken (f : Address → Instr) (nnn : Address) :
    parseAddr c f (addressToken nnn :: rest) = .ok (f nnn, rest) := by
  simp [parseAddr, bind, Except.bind, pure, Except.pure]

theorem parseLd_index (nnn : Address) :
    parseLd c (keywordToken "I" .index :: addressToken nnn :: rest) = .ok (.ldI nnn, rest) := by
  simp [parseLd, keywordToken, bind, Except.bind, pure, Except.pure]

theorem parseJp_v0 (nnn : Address) :
    parseJp c (keywordToken "V0" (.reg 0) :: addressToken nnn :: rest) = .ok (.jpV0 nnn, rest) := by
  simp [parseJp, keywordToken, bind, Except.bind, pure, Except.pure]

theorem parseInstr_drw (x y : RegIndex) (n : BitVec 4) :
    parseInstr c .drw (regToken x :: regToken y :: countToken n :: rest) = .ok (.drw x y n, rest) := by
  simp [parseInstr, bind, Except.bind, pure, Except.pure]

end

/-! ## One line -/

/-- A line that the tokenizer reads as a mnemonic and the operands of one instruction is assembled to its word. -/
theorem assemble_of_spellsTokens {text : String} {m : Mnemonic} {ops : List Token} {i : Instr} (origin : Nat)
    (htext : SpellsTokens text m ops) (hparse : ∀ c, parseInstr c m ops = .ok (i, [])) (hi : i.assemblable = true) :
    assemble text.toList origin = .ok (bytesOfWord i.word) := by
  obtain ⟨hline, htokens⟩ := htext
  have hbytes : (encodeBytes i).getD [] = bytesOfWord i.word := by rw [encodeBytes_eq_word i hi, Option.getD_some]
  rw [assemble, splitOn_of_not_sep text.toList [] hline, List.nil_append]
  simp only [assembleLines, htokens, bind, Except.bind, List.length_cons, mnemonicToken, assembleTokens, hparse, hbytes]
  rfl

/-- Every instruction with an encoding has a text, and its tokens are what the parser takes the instruction from. -/
theorem instrText_spells (i : Instr) (hi : i.assemblable = true) : ∃ text m ops, instrText i = some text ∧
    SpellsTokens text m ops ∧ ∀ c, parseInstr c m ops = .ok (i, []) := by
  cases i with
  | cls => exact ⟨_, .cls, _, rfl, spellsTokens_mnemonic .cls, fun _ => rfl⟩
  | ret => exact ⟨_, .ret, _, rfl, spellsTokens_mnemonic .ret, fun _ => rfl⟩
  | jp nnn =>
    exact ⟨_, .jp, _, rfl, spellsTokens_text1 .jp (reads_addressText nnn), fun c => parseAddr_addressToken c [] ..⟩
  | call nnn =>
    exact ⟨_, .call, _, rfl, spellsTokens_text1 .call (reads_addressText nnn), fun c => parseAddr_addressToken c [] ..⟩
  | seImm x kk => exact ⟨_, .se, _, rfl, spellsTokens_regByte .se x kk, fun c => parseDstByte_byteToken c [] ..⟩
  | sneImm x kk => exact ⟨_, .sne, _, rfl, spellsTokens_regByte .sne x kk, fun c => parseDstByte_byteToken c [] ..⟩
  | ldImm x kk => exact ⟨_, .ld, _, rfl, spellsTokens_regByte .ld x kk, fun c => parseDstByte_byteToken c [] ..⟩
  | addImm x kk => exact ⟨_, .add, _, rfl, spellsTokens_regByte .add x kk, fun c => parseDstByte_byteToken c [] ..⟩
  | rnd x kk => exact ⟨_, .rnd, _, rfl, spellsTokens_regByte .rnd x kk, fun c => parseDstByte_byteToken c [] ..⟩
  | seReg x y => exact ⟨_, .se, _, rfl, spellsTokens_regReg .se x y, fun _ => rfl⟩
  | sneReg x y => exact ⟨_, .sne, _, rfl, spellsTokens_regReg .sne x y, fun _ => rfl⟩
  | ldReg x y => exact ⟨_, .ld, _, rfl, spellsTokens_regReg .ld x y, fun _ => rfl⟩
  | or x y => exact ⟨_, .or, _, rfl, spellsTokens_regReg .or x y, fun _ => rfl⟩
  | and x y => exact ⟨_, .and, _, rfl, spellsTokens_regReg .and x y, fun _ => rfl⟩
  | xor x y => exact ⟨_, .xor, _, rfl, spellsTokens_regReg .xor x y, fun _ => rfl⟩
  | addReg x y => exact ⟨_, .add, _, rfl, spellsTokens_regReg .add x y, fun _ => rfl⟩
  | sub x y => exact ⟨_, .sub, _, rfl, spellsTokens_regReg .sub x y, fun _ => rfl⟩
  | subn x y => exact ⟨_, .subn, _, rfl, spellsTokens_regReg .subn x y, fun _ => rfl⟩
  | shr x y => exact ⟨_, .shr, _, rfl, spellsTokens_regReg .shr x y, fun _ => rfl⟩
  | shl x y => exact ⟨_, .shl, _, rfl, spellsTokens_regReg .shl x y, fun _ => rfl⟩
  | ldI nnn =>
    exact ⟨_, .ld, _, rfl, spellsTokens_text2 .ld reads_index (reads_addressText nnn),
      fun c => parseLd_index c [] nnn⟩
  | jpV0 nnn =>
    exact ⟨_, .jp, _, rfl, spellsTokens_text2 .jp reads_v0 (reads_addressText nnn),
      fun c => parseJp_v0 c [] nnn⟩
  | drw x y n =>
    exact ⟨_, .drw, _, rfl, spellsTokens_text3 .drw (reads_regText x) (reads_regText y) (reads_countText n),
      fun c => parseInstr_drw c [] x y n⟩
  | skp x => exact ⟨_, .skp, _, rfl, spellsTokens_text1 .skp (reads_regText x), fun _ => rfl⟩
  | sknp x => exact ⟨_, .sknp, _, rfl, spellsTokens_text1 .sknp (reads_regText x), fun _ => rfl⟩
  | ldVxDt x => exact ⟨_, .ld, _, rfl, spellsTokens_text2 .ld (reads_regText x) reads_dt, fun _ => rfl⟩
  | ldVxK x => exact ⟨_, .ld, _, rfl, spellsTokens_text2 .ld (reads_regText x) reads_key, fun _ => rfl⟩
  | ldDtVx x => exact ⟨_, .ld, _, rfl, spellsTokens_text2 .ld reads_dt (reads_regText x), fun _ => rfl⟩
  | ldStVx x => exact ⟨_, .ld, _, rfl, spellsTokens_text2 .ld reads_st (reads_regText x), fun _ => rfl⟩
  | addIVx x => exact ⟨_, .add, _, rfl, spellsTokens_text2 .add reads_index (reads_regText x), fun _ => rfl⟩
  | ldFVx x => exact ⟨_, .ld, _, rfl, spellsTokens_text2 .ld reads_font (reads_regText x), fun _ => rfl⟩
  | ldBVx x => exact ⟨_, .ld, _, rfl, spellsTokens_text2 .ld reads_bcd (reads_regText x), fun _ => rfl⟩
  | stBlock x => exact ⟨_, .ld, _, rfl, spellsTokens_text2 .ld reads_indexMemory (reads_regText x), fun _ => rfl⟩
  | ldBlock x => exact ⟨_, .ld, _, rfl, spellsTokens_text2 .ld (reads_regText x) reads_indexMemory, fun _ => rfl⟩
  | unknown => cases hi

/-- Settles O59: the text of an instruction is one line whose tokens the parser takes the instruction from, and the assembler
puts out its word. -/
theorem assemblingTheTextGivesTheWord : Obligations.AssemblingTheTextGivesTheWord := by
  unfold Obligations.AssemblingTheTextGivesTheWord
  intro i origin hi
  obtain ⟨text, m, ops, htext, hspells, hparse⟩ := instrText_spells i hi
  exact ⟨text, i.word, htext, encode_eq_word i hi, assemble_of_spellsTokens origin hspells hparse hi⟩

end Sys2Proof.Machine
end
